-- ==== Sys2Proof/Word.lean ====
section
/-! DEFINITION. The three word types of the command port: a byte, a command word (R81) and a response's DATA word (R86). -/

namespace Sys2Proof

/-- An input byte or an output byte (R65). -/
abbrev Byte := BitVec 8

/-- A command word, 16 bits, the only length (R81, R9 CMDW). -/
abbrev Command := BitVec 16

/-- A status register's value and a response's DATA field, 32 bits (R9 REGW, R86). -/
abbrev Word32 := BitVec 32

end Sys2Proof
end

