-- ==== Sys2Proof/Syntax.lean ====
section
/-! DEFINITION. The command set, one constructor per row of the opcode table (R82). -/

namespace Sys2Proof

/-- A command, with the operand R83 gives it. The operand types carry R83's ranges, 0 to 255. -/
inductive Instr where
  /-- NOP (R150). -/
  | nop
  /-- ENC_INIT (R100). -/
  | encInit
  /-- ENC_BYTE `b`: the byte to encode (R102). -/
  | encByte (b : Byte)
  /-- ENC_FINISH (R106). -/
  | encFinish
  /-- DEC_INIT (R120). -/
  | decInit
  /-- DEC_FEED `b`: the next 8 bits of the code stream (R124). -/
  | decFeed (b : Byte)
  /-- DEC_FINISH (R130). -/
  | decFinish
  /-- REG_READ `i`: the register index; every index 0 to 255 decodes (R84, R151). -/
  | regRead (i : Byte)
deriving DecidableEq, Repr

end Sys2Proof
end

