-- ==== Sys2Proof/WellFormed.lean ====
section
/-! DEFINITION. Which fields make a legal command word (R81, R82, R83), as checks on the three fields. A term of `Instr`
is well-formed by its types: its operand is a byte. -/

namespace Sys2Proof

/-- The three fields of a command word, R81. -/
structure Fields where
  op   : BitVec 4
  rsv  : BitVec 4
  opnd : Byte
deriving DecidableEq, Repr

/-- R81: RSV must be 0000. -/
def Fields.rsvZero (f : Fields) : Bool := f.rsv == 0

/-- R82: opcodes 0x8 to 0xF are reserved. -/
def Fields.opDefined (f : Fields) : Bool := decide (f.op.toNat < 8)

/-- R82, R83: ENC_BYTE, DEC_FEED and REG_READ are the commands that take an operand. -/
def Fields.takesOperand (f : Fields) : Bool := f.op == 0x2 || f.op == 0x5 || f.op == 0x7

/-- R83: every other command has no operand, and OPND must be 0. -/
def Fields.opndAllowed (f : Fields) : Bool := f.takesOperand || f.opnd == 0

/-- The fields of a legal command word: all three checks. -/
def Fields.wellFormed (f : Fields) : Bool := f.rsvZero && f.opDefined && f.opndAllowed

/-- Well-formedness of a command: every operand of `Instr` is a byte, which is all R83 asks, so each constructor passes.
A REG_READ of a reserved index is well-formed too: it decodes, and raises INVALID when it executes (R84). -/
def Instr.wellFormed : Instr → Bool
  | .nop => true
  | .encInit => true
  | .encByte b => decide (b.toNat < 256)
  | .encFinish => true
  | .decInit => true
  | .decFeed b => decide (b.toNat < 256)
  | .decFinish => true
  | .regRead i => decide (i.toNat < 256)

end Sys2Proof
end

