-- ==== Sys2Proof/Decode.lean ====
section
/-! DEFINITION. Decoding a command word (R84) and encoding a command (R82, R89). -/

namespace Sys2Proof

/-- Why a word is ILLEGAL (R84, R163). The block reports one code, INVALID, for all of them. -/
inductive Illegal where
  /-- RSV is not 0000 (R81, X9). -/
  | reservedBits
  /-- OP is 0x8 to 0xF (R82, X8). -/
  | reservedOpcode
  /-- A nonzero OPND on a command without operand (R83, X10). -/
  | operandNotZero
deriving DecidableEq, Repr

/-- The fields of a word: OP = [15:12], RSV = [11:8], OPND = [7:0] (R81). -/
def splitFields (w : Command) : Fields :=
  { op := w.extractLsb' 12 4, rsv := w.extractLsb' 8 4, opnd := w.extractLsb' 0 8 }

/-- The word that holds three fields (R81). -/
def joinFields (f : Fields) : Command := f.op ++ f.rsv ++ f.opnd

/-- A command without operand: OPND must be 0 (R84). -/
def noOperand (opnd : Byte) (i : Instr) : Except Illegal Instr :=
  if opnd = 0 then .ok i else .error .operandNotZero

/-- Decode, total on all 65,536 words, in the order R84 gives. -/
def decode (w : Command) : Except Illegal Instr :=
  if (splitFields w).rsv ≠ 0 then .error .reservedBits
  else match (splitFields w).op with
    | 0x0#4 => noOperand (splitFields w).opnd .nop
    | 0x1#4 => noOperand (splitFields w).opnd .encInit
    | 0x2#4 => .ok (.encByte (splitFields w).opnd)
    | 0x3#4 => noOperand (splitFields w).opnd .encFinish
    | 0x4#4 => noOperand (splitFields w).opnd .decInit
    | 0x5#4 => .ok (.decFeed (splitFields w).opnd)
    | 0x6#4 => noOperand (splitFields w).opnd .decFinish
    | 0x7#4 => .ok (.regRead (splitFields w).opnd)
    | _ => .error .reservedOpcode

/-- Whether a word decodes to a command. -/
def isLegal (w : Command) : Bool :=
  match decode w with
  | .ok _ => true
  | .error _ => false

/-- The fields of a command, with RSV = 0 (the opcode map R82). -/
def fieldsOf : Instr → Fields
  | .nop => { op := 0x0, rsv := 0, opnd := 0 }
  | .encInit => { op := 0x1, rsv := 0, opnd := 0 }
  | .encByte b => { op := 0x2, rsv := 0, opnd := b }
  | .encFinish => { op := 0x3, rsv := 0, opnd := 0 }
  | .decInit => { op := 0x4, rsv := 0, opnd := 0 }
  | .decFeed b => { op := 0x5, rsv := 0, opnd := b }
  | .decFinish => { op := 0x6, rsv := 0, opnd := 0 }
  | .regRead i => { op := 0x7, rsv := 0, opnd := i }

/-- The one word of a command. -/
def encode (i : Instr) : Command := joinFields (fieldsOf i)

/-- The low `nbits` bits of `w` as a command word: bits above `nbits` are 0, and a command has 16 bits (R81). -/
def tableWord (nbits w : Nat) : Command := BitVec.ofNat 16 (w % 2 ^ nbits)

/-- What the decoder reads from a table row's bits. -/
def decodeTableWord (nbits w : Nat) : Option Instr := (decode (tableWord nbits w)).toOption

end Sys2Proof
end

