-- ==== Sys2Proof/Config.lean ====
section
/-! DEFINITION. What is fixed for the machine: the parameters of R8 and R9, and the three open parameters of R10. -/

namespace Sys2Proof

/-- The symbol number of the end-of-string marker, R8 EOS. -/
def Config.eos : Nat := 256

/-- The most padding bits a string may end with, R8 PADMAX (90_conflicts C1: 7, not 4). -/
def Config.padMax : Nat := 7

/-- The longest codeword, R8 LMAX. No node is this deep (R38), which is what X16's stuck state is about. -/
def Config.lmax : Nat := 30

/-- The two values R10 allows for DEC_STRIDE: one bit, or one nibble, a step. -/
inductive Stride where
  /-- DEC_STRIDE = 1, the reference form of R124. -/
  | bit
  /-- DEC_STRIDE = 4, the automaton form of R127. -/
  | nibble
deriving DecidableEq, Repr

/-- The stride this machine uses. DESIGN CHOICE, safe: R10 and X2 leave it open and say that no observable result
depends on it; log entry 4. Every meaning that reads it takes the stride as an argument, so both are modelled. -/
def Config.decStride : Stride := .bit

/-- CMD_LATENCY of R10: left open. Nothing reads it: no rule depends on time (R207); log entry 5. -/
opaque Config.cmdLatency : Nat

/-- OUT_FIFO_DEPTH of R10: left open. Nothing reads it: a full buffer only delays (R205); log entry 5. -/
opaque Config.outFifoDepth : Nat

end Sys2Proof
end

