-- ==== Sys2Proof/Machine/BitString.lean ====
section
/-! DEFINITION. Bit strings (R12): a length and a value, both unbounded naturals, with the operations the rules use. -/

namespace Sys2Proof.Machine

/-- A bit string `(len, val)`; the first bit of the string is bit `len - 1` of `val` (R12). -/
structure BitStr where
  len : Nat
  val : Nat
deriving DecidableEq, Repr

/-- The range condition `0 <= val < 2^len` of R12. -/
def BitStr.inRange (s : BitStr) : Bool := decide (s.val < 2 ^ s.len)

/-- The empty string, written ε in the spec (R12). -/
def BitStr.empty : BitStr := { len := 0, val := 0 }

/-- Concatenation (R12). -/
def BitStr.concat (a b : BitStr) : BitStr := { len := a.len + b.len, val := a.val * 2 ^ b.len + b.val }

/-- The first `k` bits, `prefix_k` of R12. -/
def BitStr.leading (k : Nat) (s : BitStr) : BitStr := { len := k, val := s.val >>> (s.len - k) }

/-- One more bit at the end, `(pl + 1, 2*pv + b)` of R40. -/
def BitStr.push (s : BitStr) (b : Bool) : BitStr := { len := s.len + 1, val := 2 * s.val + b.toNat }

/-- The full bytes of a string, earliest first: byte `i + 1` is `(val >> (len - 8*(i+1))) mod 2^8` (R102, R61, R62). -/
def BitStr.fullBytes (s : BitStr) : List Byte :=
  (List.range (s.len / 8)).map fun i => BitVec.ofNat 8 (s.val >>> (s.len - 8 * (i + 1)))

/-- The bits after the last full byte, right-aligned (R102). -/
def BitStr.leftover (s : BitStr) : BitStr := { len := s.len % 8, val := s.val % 2 ^ (s.len % 8) }

end Sys2Proof.Machine
end

