-- ==== Sys2Proof/Machine/CodeTable.lean ====
section
/-! DEFINITION. The code table ROM, CTROM (R21, R24): 257 entries of a 30-bit code and a 5-bit length, with the two questions
the rules ask of it: which symbol has this codeword (R40), and is this string a node (R38). -/

namespace Sys2Proof.Machine

/-- One entry of CTROM: the code, right-aligned, and its length (R20, R21). -/
structure CodeEntry where
  code : BitVec 30
  len  : BitVec 5
deriving DecidableEq, Repr

/-- CTROM entries 0 to 31 (R24). -/
def ctRows0 : List CodeEntry := [
  ⟨0x1ff8#30, 13#5⟩, ⟨0x7fffd8#30, 23#5⟩, ⟨0xfffffe2#30, 28#5⟩, ⟨0xfffffe3#30, 28#5⟩,
  ⟨0xfffffe4#30, 28#5⟩, ⟨0xfffffe5#30, 28#5⟩, ⟨0xfffffe6#30, 28#5⟩, ⟨0xfffffe7#30, 28#5⟩,
  ⟨0xfffffe8#30, 28#5⟩, ⟨0xffffea#30, 24#5⟩, ⟨0x3ffffffc#30, 30#5⟩, ⟨0xfffffe9#30, 28#5⟩,
  ⟨0xfffffea#30, 28#5⟩, ⟨0x3ffffffd#30, 30#5⟩, ⟨0xfffffeb#30, 28#5⟩, ⟨0xfffffec#30, 28#5⟩,
  ⟨0xfffffed#30, 28#5⟩, ⟨0xfffffee#30, 28#5⟩, ⟨0xfffffef#30, 28#5⟩, ⟨0xffffff0#30, 28#5⟩,
  ⟨0xffffff1#30, 28#5⟩, ⟨0xffffff2#30, 28#5⟩, ⟨0x3ffffffe#30, 30#5⟩, ⟨0xffffff3#30, 28#5⟩,
  ⟨0xffffff4#30, 28#5⟩, ⟨0xffffff5#30, 28#5⟩, ⟨0xffffff6#30, 28#5⟩, ⟨0xffffff7#30, 28#5⟩,
  ⟨0xffffff8#30, 28#5⟩, ⟨0xffffff9#30, 28#5⟩, ⟨0xffffffa#30, 28#5⟩, ⟨0xffffffb#30, 28#5⟩]

/-- CTROM entries 32 to 63 (R24). -/
def ctRows1 : List CodeEntry := [
  ⟨0x14#30, 6#5⟩, ⟨0x3f8#30, 10#5⟩, ⟨0x3f9#30, 10#5⟩, ⟨0xffa#30, 12#5⟩,
  ⟨0x1ff9#30, 13#5⟩, ⟨0x15#30, 6#5⟩, ⟨0xf8#30, 8#5⟩, ⟨0x7fa#30, 11#5⟩,
  ⟨0x3fa#30, 10#5⟩, ⟨0x3fb#30, 10#5⟩, ⟨0xf9#30, 8#5⟩, ⟨0x7fb#30, 11#5⟩,
  ⟨0xfa#30, 8#5⟩, ⟨0x16#30, 6#5⟩, ⟨0x17#30, 6#5⟩, ⟨0x18#30, 6#5⟩,
  ⟨0x0#30, 5#5⟩, ⟨0x1#30, 5#5⟩, ⟨0x2#30, 5#5⟩, ⟨0x19#30, 6#5⟩,
  ⟨0x1a#30, 6#5⟩, ⟨0x1b#30, 6#5⟩, ⟨0x1c#30, 6#5⟩, ⟨0x1d#30, 6#5⟩,
  ⟨0x1e#30, 6#5⟩, ⟨0x1f#30, 6#5⟩, ⟨0x5c#30, 7#5⟩, ⟨0xfb#30, 8#5⟩,
  ⟨0x7ffc#30, 15#5⟩, ⟨0x20#30, 6#5⟩, ⟨0xffb#30, 12#5⟩, ⟨0x3fc#30, 10#5⟩]

/-- CTROM entries 64 to 95 (R24). -/
def ctRows2 : List CodeEntry := [
  ⟨0x1ffa#30, 13#5⟩, ⟨0x21#30, 6#5⟩, ⟨0x5d#30, 7#5⟩, ⟨0x5e#30, 7#5⟩,
  ⟨0x5f#30, 7#5⟩, ⟨0x60#30, 7#5⟩, ⟨0x61#30, 7#5⟩, ⟨0x62#30, 7#5⟩,
  ⟨0x63#30, 7#5⟩, ⟨0x64#30, 7#5⟩, ⟨0x65#30, 7#5⟩, ⟨0x66#30, 7#5⟩,
  ⟨0x67#30, 7#5⟩, ⟨0x68#30, 7#5⟩, ⟨0x69#30, 7#5⟩, ⟨0x6a#30, 7#5⟩,
  ⟨0x6b#30, 7#5⟩, ⟨0x6c#30, 7#5⟩, ⟨0x6d#30, 7#5⟩, ⟨0x6e#30, 7#5⟩,
  ⟨0x6f#30, 7#5⟩, ⟨0x70#30, 7#5⟩, ⟨0x71#30, 7#5⟩, ⟨0x72#30, 7#5⟩,
  ⟨0xfc#30, 8#5⟩, ⟨0x73#30, 7#5⟩, ⟨0xfd#30, 8#5⟩, ⟨0x1ffb#30, 13#5⟩,
  ⟨0x7fff0#30, 19#5⟩, ⟨0x1ffc#30, 13#5⟩, ⟨0x3ffc#30, 14#5⟩, ⟨0x22#30, 6#5⟩]

/-- CTROM entries 96 to 127 (R24). -/
def ctRows3 : List CodeEntry := [
  ⟨0x7ffd#30, 15#5⟩, ⟨0x3#30, 5#5⟩, ⟨0x23#30, 6#5⟩, ⟨0x4#30, 5#5⟩,
  ⟨0x24#30, 6#5⟩, ⟨0x5#30, 5#5⟩, ⟨0x25#30, 6#5⟩, ⟨0x26#30, 6#5⟩,
  ⟨0x27#30, 6#5⟩, ⟨0x6#30, 5#5⟩, ⟨0x74#30, 7#5⟩, ⟨0x75#30, 7#5⟩,
  ⟨0x28#30, 6#5⟩, ⟨0x29#30, 6#5⟩, ⟨0x2a#30, 6#5⟩, ⟨0x7#30, 5#5⟩,
  ⟨0x2b#30, 6#5⟩, ⟨0x76#30, 7#5⟩, ⟨0x2c#30, 6#5⟩, ⟨0x8#30, 5#5⟩,
  ⟨0x9#30, 5#5⟩, ⟨0x2d#30, 6#5⟩, ⟨0x77#30, 7#5⟩, ⟨0x78#30, 7#5⟩,
  ⟨0x79#30, 7#5⟩, ⟨0x7a#30, 7#5⟩, ⟨0x7b#30, 7#5⟩, ⟨0x7ffe#30, 15#5⟩,
  ⟨0x7fc#30, 11#5⟩, ⟨0x3ffd#30, 14#5⟩, ⟨0x1ffd#30, 13#5⟩, ⟨0xffffffc#30, 28#5⟩]

/-- CTROM entries 128 to 159 (R24). -/
def ctRows4 : List CodeEntry := [
  ⟨0xfffe6#30, 20#5⟩, ⟨0x3fffd2#30, 22#5⟩, ⟨0xfffe7#30, 20#5⟩, ⟨0xfffe8#30, 20#5⟩,
  ⟨0x3fffd3#30, 22#5⟩, ⟨0x3fffd4#30, 22#5⟩, ⟨0x3fffd5#30, 22#5⟩, ⟨0x7fffd9#30, 23#5⟩,
  ⟨0x3fffd6#30, 22#5⟩, ⟨0x7fffda#30, 23#5⟩, ⟨0x7fffdb#30, 23#5⟩, ⟨0x7fffdc#30, 23#5⟩,
  ⟨0x7fffdd#30, 23#5⟩, ⟨0x7fffde#30, 23#5⟩, ⟨0xffffeb#30, 24#5⟩, ⟨0x7fffdf#30, 23#5⟩,
  ⟨0xffffec#30, 24#5⟩, ⟨0xffffed#30, 24#5⟩, ⟨0x3fffd7#30, 22#5⟩, ⟨0x7fffe0#30, 23#5⟩,
  ⟨0xffffee#30, 24#5⟩, ⟨0x7fffe1#30, 23#5⟩, ⟨0x7fffe2#30, 23#5⟩, ⟨0x7fffe3#30, 23#5⟩,
  ⟨0x7fffe4#30, 23#5⟩, ⟨0x1fffdc#30, 21#5⟩, ⟨0x3fffd8#30, 22#5⟩, ⟨0x7fffe5#30, 23#5⟩,
  ⟨0x3fffd9#30, 22#5⟩, ⟨0x7fffe6#30, 23#5⟩, ⟨0x7fffe7#30, 23#5⟩, ⟨0xffffef#30, 24#5⟩]

/-- CTROM entries 160 to 191 (R24). -/
def ctRows5 : List CodeEntry := [
  ⟨0x3fffda#30, 22#5⟩, ⟨0x1fffdd#30, 21#5⟩, ⟨0xfffe9#30, 20#5⟩, ⟨0x3fffdb#30, 22#5⟩,
  ⟨0x3fffdc#30, 22#5⟩, ⟨0x7fffe8#30, 23#5⟩, ⟨0x7fffe9#30, 23#5⟩, ⟨0x1fffde#30, 21#5⟩,
  ⟨0x7fffea#30, 23#5⟩, ⟨0x3fffdd#30, 22#5⟩, ⟨0x3fffde#30, 22#5⟩, ⟨0xfffff0#30, 24#5⟩,
  ⟨0x1fffdf#30, 21#5⟩, ⟨0x3fffdf#30, 22#5⟩, ⟨0x7fffeb#30, 23#5⟩, ⟨0x7fffec#30, 23#5⟩,
  ⟨0x1fffe0#30, 21#5⟩, ⟨0x1fffe1#30, 21#5⟩, ⟨0x3fffe0#30, 22#5⟩, ⟨0x1fffe2#30, 21#5⟩,
  ⟨0x7fffed#30, 23#5⟩, ⟨0x3fffe1#30, 22#5⟩, ⟨0x7fffee#30, 23#5⟩, ⟨0x7fffef#30, 23#5⟩,
  ⟨0xfffea#30, 20#5⟩, ⟨0x3fffe2#30, 22#5⟩, ⟨0x3fffe3#30, 22#5⟩, ⟨0x3fffe4#30, 22#5⟩,
  ⟨0x7ffff0#30, 23#5⟩, ⟨0x3fffe5#30, 22#5⟩, ⟨0x3fffe6#30, 22#5⟩, ⟨0x7ffff1#30, 23#5⟩]

/-- CTROM entries 192 to 223 (R24). -/
def ctRows6 : List CodeEntry := [
  ⟨0x3ffffe0#30, 26#5⟩, ⟨0x3ffffe1#30, 26#5⟩, ⟨0xfffeb#30, 20#5⟩, ⟨0x7fff1#30, 19#5⟩,
  ⟨0x3fffe7#30, 22#5⟩, ⟨0x7ffff2#30, 23#5⟩, ⟨0x3fffe8#30, 22#5⟩, ⟨0x1ffffec#30, 25#5⟩,
  ⟨0x3ffffe2#30, 26#5⟩, ⟨0x3ffffe3#30, 26#5⟩, ⟨0x3ffffe4#30, 26#5⟩, ⟨0x7ffffde#30, 27#5⟩,
  ⟨0x7ffffdf#30, 27#5⟩, ⟨0x3ffffe5#30, 26#5⟩, ⟨0xfffff1#30, 24#5⟩, ⟨0x1ffffed#30, 25#5⟩,
  ⟨0x7fff2#30, 19#5⟩, ⟨0x1fffe3#30, 21#5⟩, ⟨0x3ffffe6#30, 26#5⟩, ⟨0x7ffffe0#30, 27#5⟩,
  ⟨0x7ffffe1#30, 27#5⟩, ⟨0x3ffffe7#30, 26#5⟩, ⟨0x7ffffe2#30, 27#5⟩, ⟨0xfffff2#30, 24#5⟩,
  ⟨0x1fffe4#30, 21#5⟩, ⟨0x1fffe5#30, 21#5⟩, ⟨0x3ffffe8#30, 26#5⟩, ⟨0x3ffffe9#30, 26#5⟩,
  ⟨0xffffffd#30, 28#5⟩, ⟨0x7ffffe3#30, 27#5⟩, ⟨0x7ffffe4#30, 27#5⟩, ⟨0x7ffffe5#30, 27#5⟩]

/-- CTROM entries 224 to 255 (R24). -/
def ctRows7 : List CodeEntry := [
  ⟨0xfffec#30, 20#5⟩, ⟨0xfffff3#30, 24#5⟩, ⟨0xfffed#30, 20#5⟩, ⟨0x1fffe6#30, 21#5⟩,
  ⟨0x3fffe9#30, 22#5⟩, ⟨0x1fffe7#30, 21#5⟩, ⟨0x1fffe8#30, 21#5⟩, ⟨0x7ffff3#30, 23#5⟩,
  ⟨0x3fffea#30, 22#5⟩, ⟨0x3fffeb#30, 22#5⟩, ⟨0x1ffffee#30, 25#5⟩, ⟨0x1ffffef#30, 25#5⟩,
  ⟨0xfffff4#30, 24#5⟩, ⟨0xfffff5#30, 24#5⟩, ⟨0x3ffffea#30, 26#5⟩, ⟨0x7ffff4#30, 23#5⟩,
  ⟨0x3ffffeb#30, 26#5⟩, ⟨0x7ffffe6#30, 27#5⟩, ⟨0x3ffffec#30, 26#5⟩, ⟨0x3ffffed#30, 26#5⟩,
  ⟨0x7ffffe7#30, 27#5⟩, ⟨0x7ffffe8#30, 27#5⟩, ⟨0x7ffffe9#30, 27#5⟩, ⟨0x7ffffea#30, 27#5⟩,
  ⟨0x7ffffeb#30, 27#5⟩, ⟨0xffffffe#30, 28#5⟩, ⟨0x7ffffec#30, 27#5⟩, ⟨0x7ffffed#30, 27#5⟩,
  ⟨0x7ffffee#30, 27#5⟩, ⟨0x7ffffef#30, 27#5⟩, ⟨0x7fffff0#30, 27#5⟩, ⟨0x3ffffee#30, 26#5⟩]

/-- CTROM entries 256 to 256 (R24). -/
def ctRows8 : List CodeEntry := [
  ⟨0x3fffffff#30, 30#5⟩]

/-- CTROM, in symbol order (R24). The spec marks these values as general knowledge (RFC 7541 Appendix B); log entry 11. -/
def ctRom : List CodeEntry :=
  ctRows0 ++ (ctRows1 ++ (ctRows2 ++ (ctRows3 ++ (ctRows4 ++ (ctRows5 ++ (ctRows6 ++ (ctRows7 ++ ctRows8)))))))

/-- `CT(s)` of R24, for a symbol 0 to 256. No rule reads it above 256. -/
def ct (s : Nat) : CodeEntry := ctRom.getD s { code := 0, len := 0 }

/-- The codeword of an entry as a bit string (R21). -/
def CodeEntry.bits (e : CodeEntry) : BitStr := { len := e.len.toNat, val := e.code.toNat }

/-- The codeword of symbol `s` as a bit string. -/
def codeword (s : Nat) : BitStr := (ct s).bits

/-- Whether an entry's codeword is `w`. -/
def CodeEntry.isWord (w : BitStr) (e : CodeEntry) : Bool := Nat.beq e.len.toNat w.len && Nat.beq e.code.toNat w.val

/-- The symbol `s` with `CT(s) = (v, l)`, if there is one (R40); unique because the code is prefix-free (R23). -/
def findSymbol (w : BitStr) : Option Nat := ctRom.findIdx? (CodeEntry.isWord w)

/-- Whether `w` is a proper prefix of an entry's codeword: `l < len(s)` and `v = code(s) >> (len(s) - l)` (R38). -/
def CodeEntry.continues (w : BitStr) (e : CodeEntry) : Bool :=
  Nat.blt w.len e.len.toNat && Nat.beq (e.code.toNat >>> (e.len.toNat - w.len)) w.val

/-- A node: a proper prefix of some codeword (R38). -/
def isNode (w : BitStr) : Bool := ctRom.any (CodeEntry.continues w)

end Sys2Proof.Machine
end

