-- ==== Sys2Proof/Machine/State.lean ====
section
/-! DEFINITION. The state of the block (R20), the responses it gives (R86, R87), and the state right after reset (R190). -/

namespace Sys2Proof.Machine

/-- The result code of a response (R87, R160). -/
inductive ResultCode where
  /-- CODE 0. -/
  | ok
  /-- CODE 1 (R161). -/
  | malformed
  /-- CODE 2 (R162). -/
  | truncated
  /-- CODE 3 (R163). -/
  | invalid
deriving DecidableEq, Repr

/-- A response (R86). Its OUT field is a list of bytes tagged with a port: here one list per port, each in emit order
(R15), of which at most one is not empty; log entry 8. -/
structure Response where
  code   : ResultCode
  data   : Word32
  encOut : List Byte
  decOut : List Byte
deriving DecidableEq, Repr

/-- What the host can do to the block: issue a word (R80) or assert reset (R190). -/
inductive HostInput where
  | command (w : Command)
  | reset
deriving DecidableEq, Repr

/-- The encoder's pending bits, `ENC.n` and `ENC.v` (R27). -/
structure Enc where
  n : BitVec 3
  v : BitVec 7
deriving DecidableEq, Repr

/-- The decoder's pending bits, `DEC.pl` and `DEC.pv` (R28), and its sticky error flag, `DEC.err` (R29). -/
structure Dec where
  pl  : BitVec 5
  pv  : BitVec 29
  err : Bool
deriving DecidableEq, Repr

/-- The state: the engine state of R20, which is all the spec gives the block, and the model's two ends of the command
port. The two ROMs are constants (`ctRom`, `daRom`; log entry 3). -/
structure State where
  /-- The encoder's state (R27). -/
  enc : Enc
  /-- The decoder's state (R28, R29). -/
  dec : Dec
  /-- What the host has issued and the block has not yet taken, oldest first (R80, R152; log entry 1). -/
  port : List HostInput
  /-- Every response given so far, oldest first (R80, R62; log entry 2). -/
  responses : List Response
deriving DecidableEq, Repr

/-- Why a step can stop. -/
inductive Fault where
  /-- Raised by DEC_FEED alone, when `DEC.err = 0` and the pending prefix has 30 or more bits: X16 of file 93 gives that state
  the treatment `stuck`. No run reaches it (R28). Safe: the model stops where the spec gives no step. -/
  | stuckPrefix
deriving DecidableEq, Repr

/-- Why the model can refuse an instruction. -/
inductive Refusal where
  /-- Raised by nothing now: every command has its meaning. It would be the answer of an instruction that the model did not
  yet cover. Safe: the model would stop where the hardware goes on. -/
  | notModelled (mnemonic : String)
deriving DecidableEq, Repr

/-- The state right after reset: every engine register 0 (R190, R20); nothing issued and nothing answered yet (log
entries 1 and 2). -/
def State.reset : State :=
  { enc := { n := 0, v := 0 }, dec := { pl := 0, pv := 0, err := false }, port := [], responses := [] }

end Sys2Proof.Machine
end

