-- ==== Sys2Proof/Machine/Flags.lean ====
section
/-! DEFINITION. The accepting predicate (R36) and the ACCEPT flag (R33): the block's only condition codes beside ERR (R37). -/

namespace Sys2Proof.Machine

/-- Whether the stream may end with these pending bits (R36): none, or 1 to 7 bits that lead the EOS codeword. -/
def accepting (q : BitStr) : Bool :=
  q.len == 0 ||
    (decide (1 ≤ q.len) && decide (q.len ≤ Config.padMax) &&
      q.val == (ct Config.eos).code.toNat >>> (30 - q.len))

/-- The encoder's pending bits as a bit string (R27). -/
def Enc.bits (e : Enc) : BitStr := { len := e.n.toNat, val := e.v.toNat }

/-- The decoder's pending bits as a bit string (R28). -/
def Dec.bits (d : Dec) : BitStr := { len := d.pl.toNat, val := d.pv.toNat }

/-- DEC_STATUS.ACCEPT: `DEC.err = 0` and the pending bits accept (R33). -/
def acceptFlag (d : Dec) : Bool := !d.err && accepting d.bits

end Sys2Proof.Machine
end

