-- ==== Sys2Proof/Machine/Operands.lean ====
section
/-! DEFINITION. Operand decoding (R83), and the bits of a byte or nibble in the order a stream carries them (R61). -/

namespace Sys2Proof.Machine

/-- ENC_BYTE's operand as a symbol index, `zext_9(OPND)` (R83). It is 0 to 255: the host cannot name EOS. -/
def symbolOf (b : Byte) : Nat := (b.zeroExtend 9).toNat

/-- REG_READ's operand as a register index, `zext_8(OPND)` (R83). -/
def registerIndex (i : Byte) : Nat := i.toNat

/-- The bits of a byte, `b[7]` first (R11, R61, R83). -/
def byteBits (b : Byte) : List Bool :=
  [b.getLsbD 7, b.getLsbD 6, b.getLsbD 5, b.getLsbD 4, b.getLsbD 3, b.getLsbD 2, b.getLsbD 1, b.getLsbD 0]

/-- The bits of a nibble, `nib[3]` first (R40). -/
def nibbleBits (nib : BitVec 4) : List Bool :=
  [nib.getLsbD 3, nib.getLsbD 2, nib.getLsbD 1, nib.getLsbD 0]

/-- The two nibbles of a byte, `[b[7:4], b[3:0]]` (R127). -/
def byteNibbles (b : Byte) : List (BitVec 4) := [b.extractLsb' 4 4, b.extractLsb' 0 4]

end Sys2Proof.Machine
end

