-- ==== Sys2Proof/Machine/Automaton.lean ====
section
/-! DEFINITION. The one-bit decode step (R40), the node ids (R39), and the decode automaton ROM, DAROM (R40 to R43). -/

namespace Sys2Proof.Machine

/-- The result of one decode step (R40). -/
inductive DStep where
  /-- FAIL: EOS completed as content, or a dead end. -/
  | fail
  /-- (SYM s, n): symbol `s` completed; go on from node `n`. -/
  | sym (s : Byte) (n : BitStr)
  /-- (NONE, n): mid-codeword. -/
  | mid (n : BitStr)
deriving DecidableEq, Repr

/-- `dstep` of R40: one input bit from the pending bits `q`. The last branch is the source's guard, which no node reaches
(R40, X15). -/
def dstep (q : BitStr) (b : Bool) : DStep :=
  match findSymbol (q.push b) with
  | some s => if s = Config.eos then .fail else .sym (BitVec.ofNat 8 s) BitStr.empty
  | none => if isNode (q.push b) then .mid (q.push b) else .fail

/-- The loop of R124 and of R121: the bits in order from `cur`, collecting the symbols in `out`; `none` when a step fails. -/
def walk : List Bool → BitStr → List Byte → Option (List Byte × BitStr)
  | [], cur, out => some (out, cur)
  | b :: bs, cur, out =>
    match dstep cur b with
    | .fail => none
    | .sym s n => walk bs n (out ++ [s])
    | .mid n => walk bs n out

/-- The values of the nodes of depth `l`, ascending: the extensions of the nodes one level up that are nodes (R38). -/
def nodesAt : Nat → List Nat
  | 0 => [0]
  | l + 1 => (nodesAt l).flatMap fun v =>
      [2 * v, 2 * v + 1].filter fun w => isNode { len := l + 1, val := w }

/-- All nodes, sorted by `(l, v)` ascending (R38, R39). -/
def nodeList : List BitStr :=
  (List.range Config.lmax).flatMap fun l => (nodesAt l).map fun v => { len := l, val := v }

/-- `id(l, v)` of R39: the rank of a node; `none` for a string that is no node. -/
def nodeId (q : BitStr) : Option Nat := nodeList.findIdx? fun n => Nat.beq n.len q.len && Nat.beq n.val q.val

/-- The node whose id is `q` (R127). -/
def nodeOf (q : BitVec 8) : BitStr := nodeList.getD q.toNat BitStr.empty

/-- The fields of a DAROM word (R41). -/
structure DaEntry where
  fail   : Bool
  accept : Bool
  emit   : Bool
  sym    : BitVec 9
  next   : BitVec 8
deriving DecidableEq, Repr

/-- The 20-bit word of an entry: FAIL [19], ACCEPT [18], EMIT [17], SYM [16:8], NEXT [7:0] (R41). -/
def DaEntry.word (e : DaEntry) : BitVec 20 :=
  BitVec.ofBool e.fail ++ BitVec.ofBool e.accept ++ BitVec.ofBool e.emit ++ e.sym ++ e.next

/-- The fields of a 20-bit word (R41). -/
def daFields (w : BitVec 20) : DaEntry :=
  { fail := w.getLsbD 19, accept := w.getLsbD 18, emit := w.getLsbD 17,
    sym := w.extractLsb' 8 9, next := w.extractLsb' 0 8 }

/-- The walk that defines DA (R40): like `walk`, but it keeps only the last completed symbol. -/
def nibbleWalk : List Bool → BitStr → Option Byte → Option (Option Byte × BitStr)
  | [], cur, sym => some (sym, cur)
  | b :: bs, cur, sym =>
    match dstep cur b with
    | .fail => none
    | .sym s n => nibbleWalk bs n (some s)
    | .mid n => nibbleWalk bs n sym

/-- The entry of node `q` and nibble `nib`, as R40 builds it. -/
def daEntry (q : BitVec 8) (nib : BitVec 4) : DaEntry :=
  match nibbleWalk (nibbleBits nib) (nodeOf q) none with
  | none => { fail := true, accept := false, emit := false, sym := 0, next := 0 }
  | some (sym, cur) =>
    { fail := false
      accept := accepting cur
      emit := sym.isSome
      sym := (sym.getD 0).zeroExtend 9
      next := BitVec.ofNat 8 ((nodeId cur).getD 0) }

/-- DAROM: the word at state id `q` and nibble `nib` (R40, R41). Its contents are fixed and no command writes them (R43). -/
def daRom (q : BitVec 8) (nib : BitVec 4) : BitVec 20 := (daEntry q nib).word

/-- `DA(q, nib)`: the fields of the ROM's word (R14, R127). -/
def da (q : BitVec 8) (nib : BitVec 4) : DaEntry := daFields (daRom q nib)

/-- The loop of R127 over nibbles, from state id `q`. -/
def nibbleFeed : List (BitVec 4) → BitVec 8 → List Byte → Option (List Byte × BitVec 8)
  | [], q, out => some (out, q)
  | nib :: nibs, q, out =>
    if (da q nib).fail then none
    else nibbleFeed nibs (da q nib).next (if (da q nib).emit then out ++ [(da q nib).sym.truncate 8] else out)

/-- The nibble form of a byte from pending bits `q` (R127). A string that is no node has no id and fails like a dead end
(log entry 13). -/
def nibbleForm (b : Byte) (q : BitStr) : Option (List Byte × BitStr) :=
  match nodeId q with
  | none => none
  | some id => (nibbleFeed (byteNibbles b) (BitVec.ofNat 8 id) []).map fun r => (r.1, nodeOf r.2)

/-- One byte through the decoder from pending bits `q`, in either form (R10 DEC_STRIDE): the completed symbols and the
pending bits after it, or `none` when a bit fails. -/
def consumeByte (stride : Stride) (b : Byte) (q : BitStr) : Option (List Byte × BitStr) :=
  match stride with
  | .bit => walk (byteBits b) q []
  | .nibble => nibbleForm b q

end Sys2Proof.Machine
end

