-- ==== Sys2Proof/Machine/Ops.lean ====
section
/-! DEFINITION. The named operations over the state: taking a host input, responding (R15, R86), raising an error (R15, R167),
writing and clearing the engine registers (R27 to R29), the MALFORMED exit (R125), and reset (R190). -/

namespace Sys2Proof.Machine

/-- The CODE bits of a result code (R87). -/
def ResultCode.bits : ResultCode → BitVec 2
  | .ok => 0
  | .malformed => 1
  | .truncated => 2
  | .invalid => 3

/-- The ENC register pair that holds a bit string of at most 7 bits (R27). -/
def encOf (q : BitStr) : Enc := { n := BitVec.ofNat 3 q.len, v := BitVec.ofNat 7 q.val }

/-- The DEC registers that hold a bit string of at most 29 bits, with the flag `err` (R28, R29). -/
def decOf (q : BitStr) (err : Bool) : Dec :=
  { pl := BitVec.ofNat 5 q.len, pv := BitVec.ofNat 29 q.val, err := err }

/-- Write the encoder's pending bits (R27). -/
def setEnc (q : BitStr) (s : State) : State := { s with enc := encOf q }

/-- Write the decoder's pending bits; `DEC.err` keeps its value (R124). -/
def setDecBits (q : BitStr) (s : State) : State := { s with dec := decOf q s.dec.err }

/-- Write all of the decoder's state (R120, R125, R130). -/
def setDec (q : BitStr) (err : Bool) (s : State) : State := { s with dec := decOf q err }

/-- Give one response (R15, R80, R86). -/
def respond (r : Response) (s : State) : State := { s with responses := s.responses ++ [r] }

/-- `respond(code, data)` with an empty OUT (R15). -/
def reply (code : ResultCode) (data : Word32) (s : State) : State :=
  respond { code := code, data := data, encOut := [], decOut := [] } s

/-- `respond(OK, 0)` with bytes emitted on ENC_OUT (R86). -/
def replyEnc (out : List Byte) (s : State) : State :=
  respond { code := .ok, data := 0, encOut := out, decOut := [] } s

/-- `respond(OK, 0)` with bytes emitted on DEC_OUT (R86). -/
def replyDec (out : List Byte) (s : State) : State :=
  respond { code := .ok, data := 0, encOut := [], decOut := out } s

/-- Taking an error, the block's only exception: `raise E` is `respond(E, 0)` (R15). It saves no state, changes no mode and
transfers control nowhere (R167, R170); the state changes a rule names beside it are made by the caller. -/
def raise (code : ResultCode) (s : State) : State := reply code 0 s

/-- What stands for the return from an error (R168): the decoder at its reset state, which DEC_INIT and DEC_FINISH give it
(R120, R130). -/
def clearDec (s : State) : State := setDec BitStr.empty false s

/-- The encoder at its reset state (R100, R106). -/
def clearEnc (s : State) : State := setEnc BitStr.empty s

/-- `malformed()` of R125: the sticky flag set, the pending bits cleared, no byte emitted. -/
def malformed (s : State) : State := raise .malformed (setDec BitStr.empty true s)

/-- An ILLEGAL word: INVALID, and nothing else changes (R85, R163). -/
def illegal (s : State) : State := raise .invalid s

/-- Reset (R190): every state element at its reset value; no response, no output byte. The two ends of the command port
belong to the host and stay as they are (log entries 1 and 2). -/
def resetBlock (s : State) : State := clearDec (clearEnc s)

/-- The host's next input, and the state without it (R80: words are taken in issue order, one at a time). -/
def takeInput (s : State) : Option (HostInput × State) :=
  match s.port with
  | [] => none
  | i :: rest => some (i, { s with port := rest })

/-- Put a word at the head of the port, where the next step takes it. -/
def placeCommand (w : Command) (s : State) : State := { s with port := .command w :: s.port }

end Sys2Proof.Machine
end

