-- ==== Sys2Proof/Machine/Registers.lean ====
section
/-! DEFINITION. The four status registers, views of the state (R30 to R35). -/

namespace Sys2Proof.Machine

/-- ID: MAGIC [31:8] = 0x485546, VERSION [7:0] = 1 (R31). -/
def regId : Word32 := 0x485546#24 ++ 0x01#8

/-- ENC_STATUS: NBITS [2:0], PBITS [14:8] (R32). -/
def regEncStatus (s : State) : Word32 := s.enc.n.zeroExtend 32 ||| (s.enc.v.zeroExtend 32 <<< 8)

/-- DEC_STATUS: PLEN [4:0], ACCEPT [8], ERR [9] (R33). -/
def regDecStatus (s : State) : Word32 :=
  s.dec.pl.zeroExtend 32 ||| ((BitVec.ofBool (acceptFlag s.dec)).zeroExtend 32 <<< 8) |||
    ((BitVec.ofBool s.dec.err).zeroExtend 32 <<< 9)

/-- DEC_PREFIX: PVAL [29:0] (R34). -/
def regDecPrefix (s : State) : Word32 := s.dec.pv.zeroExtend 32

/-- `REG(i)`: the value of a defined register (R30; R9 NREG = 4); `none` for a reserved index, 4 to 255. -/
def readRegister (i : Nat) (s : State) : Option Word32 :=
  match i with
  | 0 => some regId
  | 1 => some (regEncStatus s)
  | 2 => some (regDecStatus s)
  | 3 => some (regDecPrefix s)
  | _ + 4 => none

end Sys2Proof.Machine
end

