-- ==== Sys2Proof/Machine/Control.lean ====
section
/-! DEFINITION. The control commands: NOP (R150) and REG_READ (R151). -/

namespace Sys2Proof.Machine

/-- NOP (R150): an OK response and nothing else. -/
def execNop (s : State) : Host.Outcome State Fault Refusal := .next (reply .ok 0 s)

/-- REG_READ i (R151): the register's value, or INVALID for a reserved index (R85). No side effect (R66). -/
def execRegRead (i : Byte) (s : State) : Host.Outcome State Fault Refusal :=
  match readRegister (registerIndex i) s with
  | some v => .next (reply .ok v s)
  | none => .next (raise .invalid s)

end Sys2Proof.Machine
end

