-- ==== Sys2Proof/Machine/Decoder.lean ====
section
/-! DEFINITION. The decoder commands: DEC_INIT (R120), DEC_FEED (R124, R125, R127), DEC_FINISH (R130). -/

namespace Sys2Proof.Machine

/-- DEC_INIT (R120): drop any pending bits and any error. -/
def execDecInit (s : State) : Host.Outcome State Fault Refusal := .next (reply .ok 0 (clearDec s))

/-- DEC_FEED b in either stride: the sticky check (R124), the stuck state of X16 (log entry 6), the byte's bits (R124 or
R127), and the MALFORMED exit (R125). -/
def decFeedWith (stride : Stride) (b : Byte) (s : State) : Host.Outcome State Fault Refusal :=
  if s.dec.err then .next (raise .malformed s)
  else if Config.lmax ≤ s.dec.pl.toNat then .fault .stuckPrefix
  else match consumeByte stride b s.dec.bits with
    | none => .next (malformed s)
    | some (out, cur) => .next (replyDec out (setDecBits cur s))

/-- DEC_FEED b (R124), in this machine's stride. -/
def execDecFeed (b : Byte) (s : State) : Host.Outcome State Fault Refusal := decFeedWith Config.decStride b s

/-- The code a DEC_FINISH gives (R130, R166). -/
def finishCode (d : Dec) : ResultCode :=
  if d.err then .malformed else if accepting d.bits then .ok else .truncated

/-- DEC_FINISH (R130): report how the stream ended, and make the decoder ready for the next string. -/
def execDecFinish (s : State) : Host.Outcome State Fault Refusal :=
  .next (reply (finishCode s.dec) 0 (clearDec s))

end Sys2Proof.Machine
end

