-- ==== Sys2Proof/Machine/Encoder.lean ====
section
/-! DEFINITION. The encoder commands: ENC_INIT (R100), ENC_BYTE (R102), ENC_FINISH (R106). -/

namespace Sys2Proof.Machine

/-- The pending bits followed by the codeword of `b`: `acc` and `n` of R102. -/
def appendByte (b : Byte) (e : Enc) : BitStr := e.bits.concat (codeword (symbolOf b))

/-- The padded last byte of R106: the pending bits, then the high `p = 8 - ENC.n` bits of the EOS code; nothing when there
are no pending bits. -/
def padByte (e : Enc) : List Byte :=
  if e.n.toNat = 0 then []
  else
    [BitVec.ofNat 8 (e.v.toNat * 2 ^ (8 - e.n.toNat) +
      (ct Config.eos).code.toNat >>> (30 - (8 - e.n.toNat)))]

/-- ENC_INIT (R100): drop any pending bits. -/
def execEncInit (s : State) : Host.Outcome State Fault Refusal := .next (reply .ok 0 (clearEnc s))

/-- ENC_BYTE b (R102): append the codeword, emit every byte it completes, keep the rest. -/
def execEncByte (b : Byte) (s : State) : Host.Outcome State Fault Refusal :=
  .next (replyEnc (appendByte b s.enc).fullBytes (setEnc (appendByte b s.enc).leftover s))

/-- ENC_FINISH (R106): pad and emit the last partial byte, if there is one, and end the string. -/
def execEncFinish (s : State) : Host.Outcome State Fault Refusal :=
  .next (replyEnc (padByte s.enc) (clearEnc s))

end Sys2Proof.Machine
end

