-- ==== Sys2Proof/Machine/Dispatch.lean ====
section
/-! DEFINITION. One arm per command: which meaning runs it (R82). -/

namespace Sys2Proof.Machine

def exec (i : Instr) (s : State) : Host.Outcome State Fault Refusal :=
  match i with
  | .nop => Sys2Proof.Machine.execNop s
  | .encInit => Sys2Proof.Machine.execEncInit s
  | .encByte b => Sys2Proof.Machine.execEncByte b s
  | .encFinish => Sys2Proof.Machine.execEncFinish s
  | .decInit => Sys2Proof.Machine.execDecInit s
  | .decFeed b => Sys2Proof.Machine.execDecFeed b s
  | .decFinish => Sys2Proof.Machine.execDecFinish s
  | .regRead idx => Sys2Proof.Machine.execRegRead idx s

end Sys2Proof.Machine
end

