-- ==== Sys2Proof/Machine/Step.lean ====
section
/-! DEFINITION. One step of the block: it takes the host's next input and runs it as one atomic step (R16, R80, R190). -/

namespace Sys2Proof.Machine

/-- One step. With nothing issued the block waits and holds its state (R180, R191); a reset input resets it (R190); a legal
word runs as its command (R84); an ILLEGAL word gets INVALID (R85). -/
def step (s : State) : Host.Outcome State Fault Refusal :=
  match takeInput s with
  | none => .next s
  | some (.reset, t) => .next (resetBlock t)
  | some (.command w, t) =>
    match decode w with
    | .ok i => exec i t
    | .error _ => .next (illegal t)

/-- `s` with an instruction's word issued next: the host's word at the head of the port, where the next step takes it (log
entry 14). -/
def State.withFetchWord (s : State) (nbits w : Nat) : State := placeCommand (tableWord nbits w) s

end Sys2Proof.Machine
end

