-- ==== Sys2Proof/Machine/Contract.lean ====
section
/-! DEFINITION. The string-level contracts: `huff_encode` (R101) and `huff_decode` (R121), the command sequences that make a
call (R80, R90), and when the host may accept decoded bytes (R131, R201). -/

namespace Sys2Proof.Machine

/-- The code bits of a byte string: `bits` after the loop of R101. -/
def codeBits (s : List Byte) : BitStr := s.foldl (fun acc b => acc.concat (codeword (symbolOf b))) BitStr.empty

/-- The number of padding bits, `p` of R101. -/
def padCount (q : BitStr) : Nat := (8 - q.len % 8) % 8

/-- `huff_encode` (R101). -/
def huffEncode (s : List Byte) : List Byte :=
  ((codeBits s).concat ((codeword Config.eos).leading (padCount (codeBits s)))).fullBytes

/-- The result of `huff_decode` (R121). -/
inductive DecodeResult where
  | ok (out : List Byte)
  | malformed
  | truncated
deriving DecidableEq, Repr

/-- `huff_decode` (R121). -/
def huffDecode (x : List Byte) : DecodeResult :=
  match walk (x.flatMap byteBits) BitStr.empty [] with
  | none => .malformed
  | some (out, cur) => if accepting cur then .ok out else .truncated

/-- The commands of `encode(s)` (R80, R90 ENCODE). -/
def encodeCall (s : List Byte) : List Instr := .encInit :: (s.map .encByte ++ [.encFinish])

/-- The commands of `decode(x)` (R80, R90 DECODE). -/
def decodeCall (x : List Byte) : List Instr := .decInit :: (x.map .decFeed ++ [.decFinish])

/-- The encoder's commands (R6). -/
def isEncoder : Instr → Bool
  | .encInit => true
  | .encByte _ => true
  | .encFinish => true
  | .nop => false
  | .decInit => false
  | .decFeed _ => false
  | .decFinish => false
  | .regRead _ => false

/-- The decoder's commands (R6). -/
def isDecoder : Instr → Bool
  | .decInit => true
  | .decFeed _ => true
  | .decFinish => true
  | .nop => false
  | .encInit => false
  | .encByte _ => false
  | .encFinish => false
  | .regRead _ => false

/-- The bytes a list of responses put on ENC_OUT, in order (R62, R90). -/
def encOutBytes (rs : List Response) : List Byte := rs.flatMap Response.encOut

/-- The bytes a list of responses put on DEC_OUT, in order (R62, R90). -/
def decOutBytes (rs : List Response) : List Byte := rs.flatMap Response.decOut

/-- What the host may take as the decoding of a string, from the responses of that string's decoder commands, DEC_FINISH's
the last: the DEC_OUT bytes if every command answered OK, else nothing (R131, R201). -/
def acceptDecoded (rs : List Response) : Option (List Byte) :=
  if rs.all (fun r => decide (r.code = .ok)) then some (decOutBytes rs) else none

end Sys2Proof.Machine
end

