-- ==== Sys2Proof/Machine/Assembler.lean ====
section
/-! DEFINITION. The command text (R89) and the pseudo-instructions (R90): a line's characters to tokens, tokens to a command,
a command to instructions, instructions to words. The text has no semantics of its own (D28); conventions the grammar leaves open
are log entry 12. -/

namespace Sys2Proof.Machine

/-- Why a line does not assemble. -/
inductive AsmError where
  /-- A byte outside 0 to 255, or a register index outside 0 to 255: "It never wraps" (R89). -/
  | outOfRange
  /-- A character that is not ASCII where R89 or R90 asks for ASCII. -/
  | notAscii
  /-- A character, quote, escape or number that the grammar does not have. -/
  | badToken
  /-- No such command, or operands that do not fit it. -/
  | badCommand
deriving DecidableEq, Repr

/-- A byte operand: a number, or a quoted character (R89 `byte`). -/
inductive AsmByte where
  | num (n : Nat)
  | char (c : Char)
deriving DecidableEq, Repr

/-- A register operand: a number, or a register name (R89 `reg`). -/
inductive AsmReg where
  | num (n : Nat)
  | id
  | encStatus
  | decStatus
  | decPrefix
deriving DecidableEq, Repr

/-- A command or pseudo-instruction, before its operands are checked (R89, R90). -/
inductive AsmCommand where
  | nop
  | encInit
  | encByte (b : AsmByte)
  | encFinish
  | decInit
  | decFeed (b : AsmByte)
  | decFinish
  | regRead (r : AsmReg)
  | encStr (text : List Byte)
  | encodeText (text : List Byte)
  | decBytes (bs : List AsmByte)
  | decodeBytes (bs : List AsmByte)
deriving DecidableEq, Repr

/-- The value of a byte operand; out of range is an error, never a wrap (R89). -/
def asmByteValue : AsmByte → Except AsmError Byte
  | .num n => if n < 256 then .ok (BitVec.ofNat 8 n) else .error .outOfRange
  | .char c => if c.toNat < 128 then .ok (BitVec.ofNat 8 c.toNat) else .error .notAscii

/-- The index of a register operand (R89; the names stand for indices 0 to 3). -/
def asmRegValue : AsmReg → Except AsmError Byte
  | .num n => if n < 256 then .ok (BitVec.ofNat 8 n) else .error .outOfRange
  | .id => .ok 0
  | .encStatus => .ok 1
  | .decStatus => .ok 2
  | .decPrefix => .ok 3

/-- The values of a list of byte operands, or the first error. -/
def asmByteValues : List AsmByte → Except AsmError (List Byte)
  | [] => .ok []
  | b :: bs =>
    match asmByteValue b, asmByteValues bs with
    | .ok v, .ok vs => .ok (v :: vs)
    | .error e, _ => .error e
    | .ok _, .error e => .error e

/-- The instructions of a command or pseudo-instruction (R89, R90). -/
def expand : AsmCommand → Except AsmError (List Instr)
  | .nop => .ok [.nop]
  | .encInit => .ok [.encInit]
  | .encByte b => (asmByteValue b).map fun v => [.encByte v]
  | .encFinish => .ok [.encFinish]
  | .decInit => .ok [.decInit]
  | .decFeed b => (asmByteValue b).map fun v => [.decFeed v]
  | .decFinish => .ok [.decFinish]
  | .regRead r => (asmRegValue r).map fun v => [.regRead v]
  | .encStr text => .ok (text.map .encByte)
  | .encodeText text => .ok (encodeCall text)
  | .decBytes bs => (asmByteValues bs).map fun vs => vs.map .decFeed
  | .decodeBytes bs => (asmByteValues bs).map decodeCall

/-- The words of a command or pseudo-instruction: one per instruction (R89). -/
def assemble (c : AsmCommand) : Except AsmError (List Command) := (expand c).map fun is => is.map encode

/-- A token of a line. -/
inductive Token where
  | word (cs : List Char)
  | char (c : Char)
  | text (bs : List Byte)
  | colon
deriving DecidableEq, Repr

/-- Where the reader of a line stands: between quotes, with the bytes read so far, or not, with the word read so far. -/
inductive LexMode where
  | plain (cur : List Char)
  | text (acc : List Byte)
deriving DecidableEq, Repr

/-- A hexadecimal digit's value, in either case. DESIGN CHOICE, safe (log entry 12): R89 does not name the case. -/
def hexDigit (c : Char) : Option Nat :=
  if 48 ≤ c.toNat ∧ c.toNat ≤ 57 then some (c.toNat - 48)
  else if 97 ≤ c.toNat ∧ c.toNat ≤ 102 then some (c.toNat - 87)
  else if 65 ≤ c.toNat ∧ c.toNat ≤ 70 then some (c.toNat - 55)
  else none

/-- A decimal digit's value. -/
def decDigit (c : Char) : Option Nat :=
  if 48 ≤ c.toNat ∧ c.toNat ≤ 57 then some (c.toNat - 48) else none

/-- The number some digits spell in a base, continuing from `acc`. -/
def digits (base : Nat) (digit : Char → Option Nat) : List Char → Nat → Option Nat
  | [], acc => some acc
  | c :: cs, acc =>
    match digit c with
    | some d => digits base digit cs (acc * base + d)
    | none => none

/-- A number: decimal, or 0x and hexadecimal digits (R89). DESIGN CHOICE, safe (log entry 12): R89 gives ranges of values and does not
say how many digits a number may have, so leading zeros are read in both bases (`007` is 7). -/
def number : List Char → Option Nat
  | [] => none
  | '0' :: 'x' :: c :: cs => digits 16 hexDigit (c :: cs) 0
  | c :: cs => digits 10 decDigit (c :: cs) 0

/-- The characters of a word: letters, digits and the underscore. DESIGN CHOICE, safe (log entry 12): R89 does not say what a
label is made of. -/
def isWordChar (c : Char) : Bool :=
  decide (48 ≤ c.toNat ∧ c.toNat ≤ 57) || decide (65 ≤ c.toNat ∧ c.toNat ≤ 90) ||
    decide (97 ≤ c.toNat ∧ c.toNat ≤ 122) || c == '_'

/-- Blanks between words: spaces and tabs. DESIGN CHOICE, safe (log entry 12). -/
def isBlank (c : Char) : Bool := c == ' ' || c == '\t'

/-- The token of the word read so far, if one has begun. -/
def endWord (cur : List Char) (ts : List Token) : List Token := if cur.isEmpty then ts else .word cur :: ts

/-- Put the pending word and one token before the rest of a line. -/
def thenToken (cur : List Char) (t : Token) (rest : Except AsmError (List Token)) : Except AsmError (List Token) :=
  rest.map fun ts => endWord cur (t :: ts)

/-- The tokens of a line (R89, R90): words, quoted characters, quoted text with two-digit hexadecimal escapes, colons; a
semicolon outside quotes begins a comment. DESIGN CHOICE, safe (log entry 12): R89 does not say where blanks are required. Here they are
required between two words alone: a word ends at the first character that no word has, so a quote, a colon or a semicolon ends it
with no blank (`ENC_BYTE'w'`, `top:NOP`), and `ENC_BYTE5` is one word. -/
def lex : LexMode → List Char → Except AsmError (List Token)
  | .plain cur, [] => .ok (endWord cur [])
  | .plain cur, '\'' :: c :: '\'' :: rest => thenToken cur (.char c) (lex (.plain []) rest)
  | .plain cur, c :: rest =>
    if c = ';' then .ok (endWord cur [])
    else if c = ':' then thenToken cur .colon (lex (.plain []) rest)
    else if c = '"' then (lex (.text []) rest).map (endWord cur)
    else if isBlank c then (lex (.plain []) rest).map (endWord cur)
    else if isWordChar c then lex (.plain (cur ++ [c])) rest
    else .error .badToken
  | .text _, [] => .error .badToken
  | .text acc, '\\' :: 'x' :: h :: l :: rest =>
    match hexDigit h, hexDigit l with
    | some hv, some lv => lex (.text (acc ++ [BitVec.ofNat 8 (16 * hv + lv)])) rest
    | _, _ => .error .badToken
  | .text acc, c :: rest =>
    if c = '"' then (lex (.plain []) rest).map fun ts => .text acc :: ts
    else if c = '\\' then .error .badToken
    else if c.toNat < 128 then lex (.text (acc ++ [BitVec.ofNat 8 c.toNat])) rest
    else .error .notAscii

/-- A byte operand's token. -/
def parseByte : Token → Option AsmByte
  | .word cs => (number cs).map .num
  | .char c => some (.char c)
  | .text _ => none
  | .colon => none

/-- A list of byte operands. -/
def parseBytes : List Token → Option (List AsmByte)
  | [] => some []
  | t :: ts =>
    match parseByte t, parseBytes ts with
    | some b, some bs => some (b :: bs)
    | _, _ => none

/-- The register names of R30. -/
def registerNames : List (List Char × AsmReg) :=
  [("ID".toList, .id), ("ENC_STATUS".toList, .encStatus), ("DEC_STATUS".toList, .decStatus),
    ("DEC_PREFIX".toList, .decPrefix)]

/-- A register operand's token. -/
def parseReg : Token → Option AsmReg
  | .word cs => (registerNames.lookup cs).or ((number cs).map .num)
  | .char _ => none
  | .text _ => none
  | .colon => none

/-- The commands that are one word of text (R89). -/
def plainCommands : List (List Char × AsmCommand) :=
  [("NOP".toList, .nop), ("ENC_INIT".toList, .encInit), ("ENC_FINISH".toList, .encFinish),
    ("DEC_INIT".toList, .decInit), ("DEC_FINISH".toList, .decFinish)]

/-- A command from its mnemonic and its operands (R89, R90). DESIGN CHOICE, safe (log entry 12): DEC_BYTES with no byte is no word;
DECODE with none is what R90 says. -/
def parseCommand (m : List Char) (args : List Token) : Option AsmCommand :=
  match args with
  | [] =>
    if m = "DEC_BYTES".toList then some (.decBytes [])
    else if m = "DECODE".toList then some (.decodeBytes [])
    else plainCommands.lookup m
  | [.text bs] =>
    if m = "ENC_STR".toList then some (.encStr bs)
    else if m = "ENCODE".toList then some (.encodeText bs)
    else none
  | a :: more =>
    if m = "DEC_BYTES".toList then (parseBytes (a :: more)).map .decBytes
    else if m = "DECODE".toList then (parseBytes (a :: more)).map .decodeBytes
    else if more.isEmpty then
      if m = "ENC_BYTE".toList then (parseByte a).map .encByte
      else if m = "DEC_FEED".toList then (parseByte a).map .decFeed
      else if m = "REG_READ".toList then (parseReg a).map .regRead
      else none
    else none

/-- A line without its label (R89): a command, or nothing. -/
def parseUnlabelled : List Token → Except AsmError (Option AsmCommand)
  | [] => .ok none
  | .word m :: args =>
    match parseCommand m args with
    | some c => .ok (some c)
    | none => .error .badCommand
  | .char _ :: _ => .error .badCommand
  | .text _ :: _ => .error .badCommand
  | .colon :: _ => .error .badCommand

/-- A line (R89): an optional label, which nothing uses, and an optional command. DESIGN CHOICE, safe (log entry 12): a label may
spell a mnemonic. -/
def parseLine : List Token → Except AsmError (Option AsmCommand)
  | .word _ :: .colon :: rest => parseUnlabelled rest
  | ts => parseUnlabelled ts

/-- The words a line of text assembles to (R89). -/
def assembleLine (line : List Char) : Except AsmError (List Command) :=
  match lex (.plain []) line with
  | .error e => .error e
  | .ok ts =>
    match parseLine ts with
    | .error e => .error e
    | .ok none => .ok []
    | .ok (some c) => assemble c

/-- The words a program of several lines assembles to, in order. DESIGN CHOICE, safe (log entry 12): one line in error gives no word. -/
def assembleProgram : List (List Char) → Except AsmError (List Command)
  | [] => .ok []
  | line :: rest =>
    match assembleLine line, assembleProgram rest with
    | .ok ws, .ok more => .ok (ws ++ more)
    | .error e, _ => .error e
    | .ok _, .error e => .error e

end Sys2Proof.Machine
end

