-- ==== Sys2Proof/Safety.lean ====
section
/-! DEFINITION. What the statements speak of: the invariant of the engine registers (R27, R28, R125), the state a response
leaves, command sequences as the host issues them (R80), and the spec's loops in the statements' own words. -/

namespace Sys2Proof.Machine

/-- R27: `0 <= ENC.v < 2^ENC.n`. (`ENC.n <= 7` is its width.) -/
def encOk (e : Enc) : Bool := e.bits.inRange

/-- R28: the decoder's pending bits are a node; and after an error they are clear (R125: one fixed state). -/
def decOk (d : Dec) : Bool := isNode d.bits && (!d.err || d.bits == BitStr.empty)

/-- The invariant of the engine state (R27, R28, R125). -/
def State.Inv (s : State) : Prop := encOk s.enc = true ∧ decOk s.dec = true

/-- `s` with one more response and nothing else changed (R86). -/
def answered (code : ResultCode) (data : Word32) (encOut decOut : List Byte) (s : State) : State :=
  { s with responses := s.responses ++ [{ code := code, data := data, encOut := encOut, decOut := decOut }] }

/-- A list of commands as the host's inputs (R80, R89: one word a command). -/
def inputsOf (is : List Instr) : List HostInput := is.map fun i => .command (encode i)

/-- The responses to the decoder's commands, out of the responses `rs` to the commands `is`. -/
def decoderResponses (is : List Instr) (rs : List Response) : List Response :=
  ((is.zip rs).filter fun p => isDecoder p.1).map Prod.snd

/-- The end-of-string test of R130 and R162 in numbers (R36, second form): no pending bits, or 1 to 7 one bits. -/
def endsClean (d : Dec) : Bool :=
  decide (d.pl.toNat = 0) || (decide (d.pl.toNat ≤ 7) && decide (d.pv.toNat = 2 ^ d.pl.toNat - 1))

/-- Whether a bit of `b` is the thirtieth of 30 one bits that start at a symbol boundary (R124, R161 a): the pending bits
are all ones, 22 or more, and the first `30 - DEC.pl` bits of `b` are ones. -/
def completesEos (b : Byte) (d : Dec) : Bool :=
  decide (22 ≤ d.pl.toNat) && decide (d.pv.toNat = 2 ^ d.pl.toNat - 1) &&
    decide (b.toNat / 2 ^ (d.pl.toNat - 22) = 2 ^ (30 - d.pl.toNat) - 1)

/-- One turn of the loop of R124, on the symbols so far and the pending bits; `none` once a bit has failed. -/
def feedTurn (b : Byte) (acc : Option (List Byte × BitStr)) (k : Nat) : Option (List Byte × BitStr) :=
  acc.bind fun r =>
    match dstep r.2 (b.getLsbD k) with
    | .fail => none
    | .sym s n => some (r.1 ++ [s], n)
    | .mid n => some (r.1, n)

/-- The loop of R124, `for k in 7 downto 0`, from the decoder's pending bits. -/
def feedLoop (b : Byte) (d : Dec) : Option (List Byte × BitStr) :=
  [7, 6, 5, 4, 3, 2, 1, 0].foldl (feedTurn b) (some ([], { len := d.pl.toNat, val := d.pv.toNat }))

/-- The one code a word is answered with, by the priorities of R166. -/
def expectedCode (w : Command) (s : State) : ResultCode :=
  match decode w with
  | .error _ => .invalid
  | .ok (.regRead i) => if i.toNat < 4 then .ok else .invalid
  | .ok (.decFeed b) => if s.dec.err || completesEos b s.dec then .malformed else .ok
  | .ok .decFinish => if s.dec.err then .malformed else if endsClean s.dec then .ok else .truncated
  | .ok .nop => .ok
  | .ok .encInit => .ok
  | .ok (.encByte _) => .ok
  | .ok .encFinish => .ok
  | .ok .decInit => .ok

/-- The first `l` bits of an infinite bit sequence, as a bit string (R23). -/
def firstBits (f : Nat → Bool) (l : Nat) : BitStr := (List.range l).foldl (fun q k => q.push (f k)) BitStr.empty

/-- The bits of a byte string, first byte first, as a bit string (R62, R101). -/
def bitsOfBytes (bs : List Byte) : BitStr := bs.foldl (fun q b => q.concat { len := 8, val := b.toNat }) BitStr.empty

/-- The order of R22 and R39: by the first number, then by the second. -/
def lexBefore (a b : Nat × Nat) : Prop := a.1 < b.1 ∨ (a.1 = b.1 ∧ a.2 < b.2)

end Sys2Proof.Machine
end

