-- ==== Sys2Proof/Certificates/Slice0/Obligations.lean ====
section
/-! DEFINITION. The statements for the provers. Each docstring names the rule of spec/ that the statement formalises. In every
conclusion `exec i s = .next (answered … s')` the whole next state is given, so it is the instruction's frame as well: what the
record update does not name is unchanged (the block has no memory, R60). -/

open Sys2Proof Sys2Proof.Machine

/-! ### Decoding and encoding -/

/-- R84: decode, clause by clause on the three fields, the two counts of words, and that a REG_READ of an undefined index
decodes but raises INVALID. -/
def Obligations.DecodeTable : Prop :=
  (∀ (op rsv : BitVec 4) (opnd : Byte), rsv ≠ 0 → ∃ e, decode (op ++ rsv ++ opnd) = .error e) ∧
  (∀ (op : BitVec 4) (opnd : Byte), 8 ≤ op.toNat → ∃ e, decode (op ++ 0x0#4 ++ opnd) = .error e) ∧
  (∀ (op : BitVec 4) (opnd : Byte), op ∈ [0x0#4, 0x1#4, 0x3#4, 0x4#4, 0x6#4] → opnd ≠ 0 →
    ∃ e, decode (op ++ 0x0#4 ++ opnd) = .error e) ∧
  (decode 0x0000 = .ok .nop ∧ decode 0x1000 = .ok .encInit ∧ decode 0x3000 = .ok .encFinish ∧
    decode 0x4000 = .ok .decInit ∧ decode 0x6000 = .ok .decFinish) ∧
  (∀ b : Byte, decode (0x2#4 ++ 0x0#4 ++ b) = .ok (.encByte b)) ∧
  (∀ b : Byte, decode (0x5#4 ++ 0x0#4 ++ b) = .ok (.decFeed b)) ∧
  (∀ i : Byte, decode (0x7#4 ++ 0x0#4 ++ i) = .ok (.regRead i)) ∧
  (List.range 65536).countP (fun n => isLegal (BitVec.ofNat 16 n)) = 773 ∧
  (List.range 65536).countP (fun n => !isLegal (BitVec.ofNat 16 n)) = 64763 ∧
  (∀ (s : State) (i : Byte), 4 ≤ i.toNat → exec (.regRead i) s = .next (answered .invalid 0 [] [] s))

/-- Decode and encode agree on every command and every operand (R82, R84, R89). -/
def Obligations.DecodeEncode : Prop := ∀ i : Instr, decode (encode i) = .ok i

/-- A command has one spelling: a word that decodes is the word of its command (R81, R84, D14). -/
def Obligations.EncodeDecode : Prop := ∀ (w : Command) (i : Instr), decode w = .ok i → encode i = w

/-- The checks on the fields (R81, R82, R83) accept exactly the words that decode (R84), and every command passes. -/
def Obligations.WellFormedWords : Prop :=
  (∀ w : Command, (splitFields w).wellFormed = isLegal w) ∧
  (∀ i : Instr, i.wellFormed = true ∧ (fieldsOf i).wellFormed = true ∧ splitFields (encode i) = fieldsOf i)

/-- The example words of R89 and of the command rules decode to the commands they stand for. -/
def Obligations.SampleWords : Prop :=
  decode 0x2077 = .ok (.encByte 0x77) ∧ decode 0x50F1 = .ok (.decFeed 0xF1) ∧ decode 0x7002 = .ok (.regRead 2) ∧
  decode 0x0000 = .ok .nop ∧ decode 0x1000 = .ok .encInit ∧ decode 0x3000 = .ok .encFinish ∧
  decode 0x4000 = .ok .decInit ∧ decode 0x6000 = .ok .decFinish

/-! ### The step -/

/-- A step runs the decoded command on the state without its word (R16, R80, R84). The second clause is the model's choice, log entry 14
(DESIGN CHOICE), and no rule of the spec: where `withFetchWord` puts a word, so that the next step runs it. -/
def Obligations.StepRunsDecoded : Prop :=
  (∀ (s : State) (w : Command) (rest : List HostInput) (i : Instr),
    s.port = .command w :: rest → decode w = .ok i → step s = exec i { s with port := rest }) ∧
  (∀ (s : State) (w : Nat) (i : Instr), decodeTableWord 16 w = some i → step (s.withFetchWord 16 w) = exec i s)

/-- With nothing issued, the block holds its state (R180, R191). -/
def Obligations.IdleHoldsState : Prop := ∀ s : State, s.port = [] → step s = .next s

/-- R85: what an ILLEGAL word and a REG_READ of a reserved index do; NOP, at 0x0000, is the only no-op encoding. -/
def Obligations.InvalidEffect : Prop :=
  (∀ (s : State) (w : Command) (rest : List HostInput), s.port = .command w :: rest → isLegal w = false →
    step s = .next (answered .invalid 0 [] [] { s with port := rest })) ∧
  (∀ (s : State) (i : Byte), 4 ≤ i.toNat → exec (.regRead i) s = .next (answered .invalid 0 [] [] s)) ∧
  (∀ w : Command, decode w = .ok .nop ↔ w = 0x0000)

/-- R163: the words that raise INVALID, and that each of them changes nothing else: no state, no output, DATA = 0. -/
def Obligations.InvalidWords : Prop :=
  ∀ (s : State) (w : Command) (rest : List HostInput), s.port = .command w :: rest →
    (w.extractLsb' 8 4 ≠ 0 ∨ 8 ≤ (w.extractLsb' 12 4).toNat ∨
      (w.extractLsb' 12 4 ∈ [0x0#4, 0x1#4, 0x3#4, 0x4#4, 0x6#4] ∧ w.extractLsb' 0 8 ≠ 0) ∨
      (w.extractLsb' 12 4 = 0x7 ∧ 4 ≤ (w.extractLsb' 0 8).toNat)) →
    step s = .next (answered .invalid 0 [] [] { s with port := rest })

/-- Every command word gets exactly one response and leaves the port; nothing stops the block in a state that meets the
invariant (R80, R164). -/
def Obligations.StepCompletes : Prop :=
  ∀ s : State, s.Inv →
    ∃ t, step s = .next t ∧ t.port = s.port.tail ∧
      ((∃ w rest, s.port = .command w :: rest) → ∃ r, t.responses = s.responses ++ [r]) ∧
      ((∀ w rest, s.port ≠ .command w :: rest) → t.responses = s.responses)

/-- R166: the one code a word is answered with (the first cause of the list wins), in every state that meets the invariant. -/
def Obligations.CodePriority : Prop :=
  ∀ (s : State) (w : Command) (rest : List HostInput), s.Inv → s.port = .command w :: rest →
    ∃ t r, step s = .next t ∧ t.responses = s.responses ++ [r] ∧ r.code = expectedCode w s

/-! ### Reset and the invariant -/

/-- R190: reset sets every state element to its reset value, gives no response and takes no word; and the state the machine
starts in has those values. (That the port and the responses start empty is the model's choice, log entries 1 and 2, and is
not stated.) -/
def Obligations.ResetEffect : Prop :=
  (∀ (s : State) (rest : List HostInput), s.port = .reset :: rest →
    step s = .next { s with enc := { n := 0, v := 0 }, dec := { pl := 0, pv := 0, err := false }, port := rest }) ∧
  State.reset.enc = { n := 0, v := 0 } ∧ State.reset.dec = { pl := 0, pv := 0, err := false }

/-- R191: the register values right after reset, the two other ways to that state (ENC_INIT plus DEC_INIT, ENC_FINISH plus
DEC_FINISH), and that the block then waits for its first command and accepts any. -/
def Obligations.ResetEquivalents : Prop :=
  (∀ s : State, s.enc = State.reset.enc → s.dec = State.reset.dec →
    exec (.regRead 0) s = .next (answered .ok 0x48554601 [] [] s) ∧
    exec (.regRead 1) s = .next (answered .ok 0x00000000 [] [] s) ∧
    exec (.regRead 2) s = .next (answered .ok 0x00000100 [] [] s) ∧
    exec (.regRead 3) s = .next (answered .ok 0x00000000 [] [] s)) ∧
  (∀ s t u : State, exec .encInit s = .next t → exec .decInit t = .next u →
    u.enc = State.reset.enc ∧ u.dec = State.reset.dec) ∧
  (∀ s t u : State, exec .encFinish s = .next t → exec .decFinish t = .next u →
    u.enc = State.reset.enc ∧ u.dec = State.reset.dec) ∧
  (∀ s : State, s.enc = State.reset.enc → s.dec = State.reset.dec →
    (s.port = [] → step s = .next s) ∧ (∀ i : Instr, ∃ t, exec i s = .next t))

/-- The invariant holds at reset. -/
def Obligations.ResetMeetsInvariant : Prop := State.reset.Inv

/-- Every step keeps the invariant (R27: `ENC.v < 2^ENC.n`; R28: the decoder's pending bits are a node; R125: clear after an
error). -/
def Obligations.StepKeepsInvariant : Prop := ∀ s t : State, s.Inv → step s = .next t → t.Inv

/-! ### The control commands -/

/-- R150: NOP. -/
def Obligations.NopResult : Prop :=
  encode .nop = 0x0000 ∧
  (∀ s : State, exec .nop s = .next (answered .ok 0 [] [] s)) ∧
  (∀ (s : State) (w : Command) (rest : List HostInput), s.port = .command w :: rest → w.extractLsb' 12 4 = 0x0 →
    w ≠ 0x0000 → step s = .next (answered .invalid 0 [] [] { s with port := rest }))

/-- R151, with the register values of R31 to R34 as numbers: REG_READ. -/
def Obligations.RegReadResult : Prop :=
  (∀ i : Byte, encode (.regRead i) = 0x7000#16 ||| i.zeroExtend 16) ∧
  (∀ s : State, exec (.regRead 0) s = .next (answered .ok 0x48554601 [] [] s)) ∧
  (∀ s : State, exec (.regRead 1) s =
    .next (answered .ok (BitVec.ofNat 32 (s.enc.n.toNat + 256 * s.enc.v.toNat)) [] [] s)) ∧
  (∀ s : State, exec (.regRead 2) s =
    .next (answered .ok
      (BitVec.ofNat 32 (s.dec.pl.toNat + 256 * (if s.dec.err = false ∧ endsClean s.dec = true then 1 else 0) +
        512 * s.dec.err.toNat)) [] [] s)) ∧
  (∀ s : State, exec (.regRead 3) s = .next (answered .ok (BitVec.ofNat 32 s.dec.pv.toNat) [] [] s)) ∧
  (∀ (s : State) (i : Byte), 4 ≤ i.toNat → exec (.regRead i) s = .next (answered .invalid 0 [] [] s))

/-- The reserved bits of the status registers read 0 (R35, R32, R33, R34), and so do the bits of ENC_STATUS at or above
`8 + ENC.n` and of DEC_PREFIX at or above `DEC.pl` in a state that meets the invariant. -/
def Obligations.ReservedBitsZero : Prop :=
  (∀ (s : State) (v : Word32), exec (.regRead 1) s = .next (answered .ok v [] [] s) →
    v.extractLsb' 3 5 = 0 ∧ v.extractLsb' 15 17 = 0 ∧ (s.Inv → v.toNat < 2 ^ (8 + s.enc.n.toNat))) ∧
  (∀ (s : State) (v : Word32), exec (.regRead 2) s = .next (answered .ok v [] [] s) →
    v.extractLsb' 5 3 = 0 ∧ v.extractLsb' 10 22 = 0) ∧
  (∀ (s : State) (v : Word32), exec (.regRead 3) s = .next (answered .ok v [] [] s) →
    v.extractLsb' 30 2 = 0 ∧ (s.Inv → v.toNat < 2 ^ s.dec.pl.toNat))

/-- R33: ACCEPT = 1 means "a DEC_FINISH now returns OK"; and ERR = 1 means that it returns MALFORMED. -/
def Obligations.AcceptPredictsFinish : Prop :=
  ∀ s : State, ∃ v code,
    exec (.regRead 2) s = .next (answered .ok v [] [] s) ∧
    exec .decFinish s = .next (answered code 0 [] [] { s with dec := { pl := 0, pv := 0, err := false } }) ∧
    (v.getLsbD 8 = true ↔ code = .ok) ∧ (v.getLsbD 9 = true ↔ code = .malformed)

/-- REG_READ and NOP have no side effect, and repeating them gives the same response (R66). -/
def Obligations.ReadsArePure : Prop :=
  ∀ (i : Instr) (s : State), (i = .nop ∨ ∃ j, i = .regRead j) →
    ∃ r, exec i s = .next { s with responses := s.responses ++ [r] } ∧
      exec i { s with responses := s.responses ++ [r] } = .next { s with responses := s.responses ++ [r] ++ [r] }

/-! ### The encoder -/

/-- R100: ENC_INIT. -/
def Obligations.EncInitResult : Prop :=
  encode .encInit = 0x1000 ∧
  (∀ s : State, exec .encInit s = .next (answered .ok 0 [] [] { s with enc := { n := 0, v := 0 } })) ∧
  (∀ s t : State, exec .encInit s = .next t → exec (.regRead 1) t = .next (answered .ok 0 [] [] t)) ∧
  (∀ (s : State) (w : Command) (rest : List HostInput), s.port = .command w :: rest → w.extractLsb' 12 4 = 0x1 →
    w ≠ 0x1000 → step s = .next (answered .invalid 0 [] [] { s with port := rest }))

/-- R102: ENC_BYTE. With `(c, l) = CT(b)`, `acc = ENC.v * 2^l + c` and `n = ENC.n + l`: the `n div 8` bytes of `acc` from its
top `n` bits leave, earliest first, and `n mod 8` bits stay. -/
def Obligations.EncByteResult : Prop :=
  ∀ (b : Byte) (s : State) (c l acc n : Nat),
    c = (ct b.toNat).code.toNat → l = (ct b.toNat).len.toNat → acc = s.enc.v.toNat * 2 ^ l + c →
    n = s.enc.n.toNat + l →
    encode (.encByte b) = 0x2000#16 ||| b.zeroExtend 16 ∧
    exec (.encByte b) s =
      .next (answered .ok 0 ((List.range' 1 (n / 8)).map fun i => BitVec.ofNat 8 (acc / 2 ^ (n - 8 * i) % 2 ^ 8)) []
        { s with enc := { n := BitVec.ofNat 3 (n % 8), v := BitVec.ofNat 7 (acc % 2 ^ (n % 8)) } }) ∧
    5 ≤ l ∧ l ≤ 30 ∧ n ≤ 37 ∧ n / 8 ≤ 4 ∧ (encOk s.enc = true → acc < 2 ^ 37)

/-- R104: how many bytes ENC_BYTE and ENC_FINISH emit, and when ENC_BYTE emits 4. -/
def Obligations.EncOutputBound : Prop :=
  (∀ (b : Byte) (s : State), ∃ out e,
    exec (.encByte b) s = .next (answered .ok 0 out [] { s with enc := e }) ∧
    out.length = (s.enc.n.toNat + (ct b.toNat).len.toNat) / 8 ∧ out.length ≤ 4 ∧ e.n.toNat ≤ 7 ∧
    (s.enc.n.toNat = 7 → b ∈ [10#8, 13#8, 22#8] → out.length = 4)) ∧
  (∀ s : State, ∃ out, exec .encFinish s = .next (answered .ok 0 out [] { s with enc := { n := 0, v := 0 } }) ∧
    out.length ≤ 1)

/-- R106: ENC_FINISH, with the pad as the high `p = 8 - ENC.n` bits of the EOS code 0x3fffffff, which are ones. -/
def Obligations.EncFinishResult : Prop :=
  encode .encFinish = 0x3000 ∧
  (∀ s : State, s.enc.n.toNat = 0 →
    exec .encFinish s = .next (answered .ok 0 [] [] { s with enc := { n := 0, v := 0 } })) ∧
  (∀ s : State, s.enc.n.toNat ≠ 0 →
    exec .encFinish s =
      .next (answered .ok 0
        [BitVec.ofNat 8 (s.enc.v.toNat * 2 ^ (8 - s.enc.n.toNat) + (2 ^ (8 - s.enc.n.toNat) - 1))] []
        { s with enc := { n := 0, v := 0 } })) ∧
  (∀ p : Nat, 1 ≤ p → p ≤ 7 → (ct 256).code.toNat / 2 ^ (30 - p) = 2 ^ p - 1) ∧
  (∀ s t : State, exec .encFinish s = .next t → exec (.regRead 1) t = .next (answered .ok 0 [] [] t))

/-- R108: the encoder's command sequence, from any encoder state and with other commands between, emits `huff_encode` of the
string and ends with no pending bits. -/
def Obligations.EncodeSequenceLaw : Prop :=
  ∀ (s : State) (bytes : List Byte) (is : List Instr) (rest : List HostInput),
    decOk s.dec = true → is.filter isEncoder = encodeCall bytes → s.port = inputsOf is ++ rest →
    ∃ t rs, Host.Core.run core is.length s = .next t ∧ t.responses = s.responses ++ rs ∧ rs.length = is.length ∧
      encOutBytes rs = huffEncode bytes ∧ t.enc = { n := 0, v := 0 } ∧ t.port = rest

/-- R109: the length of an encoded string is the least number of bytes that hold its code bits. -/
def Obligations.EncodedLength : Prop :=
  (∀ s : List Byte,
    (huffEncode s).length = ((s.map fun b => (ct b.toNat).len.toNat).sum + 7) / 8 ∧
    (s.map fun b => (ct b.toNat).len.toNat).sum ≤ 8 * (huffEncode s).length ∧
    (∀ m : Nat, (s.map fun b => (ct b.toNat).len.toNat).sum ≤ 8 * m → (huffEncode s).length ≤ m)) ∧
  huffEncode [] = []

/-- R107: an encoded string is its code bits and then 0 to 7 one bits, which lead the EOS codeword and are no codeword; each of the
counts 0 to 7 occurs. -/
def Obligations.PaddingLaw : Prop :=
  (∀ s : List Byte, ∃ p, p ≤ 7 ∧
    bitsOfBytes (huffEncode s) = (codeBits s).concat { len := p, val := 2 ^ p - 1 } ∧
    (codeword 256).leading p = { len := p, val := 2 ^ p - 1 } ∧
    (∀ a, a ≤ 256 → codeword a ≠ { len := p, val := 2 ^ p - 1 })) ∧
  (∀ p, p ≤ 7 → ∃ s, bitsOfBytes (huffEncode s) = (codeBits s).concat { len := p, val := 2 ^ p - 1 })

/-! ### The decoder -/

/-- R120: DEC_INIT. -/
def Obligations.DecInitResult : Prop :=
  encode .decInit = 0x4000 ∧
  (∀ s : State, exec .decInit s = .next (answered .ok 0 [] [] { s with dec := { pl := 0, pv := 0, err := false } })) ∧
  (∀ s t : State, exec .decInit s = .next t → exec (.regRead 2) t = .next (answered .ok 0x00000100 [] [] t)) ∧
  (∀ (s : State) (w : Command) (rest : List HostInput), s.port = .command w :: rest → w.extractLsb' 12 4 = 0x4 →
    w ≠ 0x4000 → step s = .next (answered .invalid 0 [] [] { s with port := rest }))

/-- R124 and R125: DEC_FEED, against the loop of R124 over the bits 7 down to 0: the sticky repeat, the MALFORMED exit and the
completed byte; when the loop fails; and what DEC_FINISH then reports. The premise `DEC.pl <= 29` is the range of R28. -/
def Obligations.DecFeedResult : Prop :=
  (∀ b : Byte, encode (.decFeed b) = 0x5000#16 ||| b.zeroExtend 16) ∧
  (∀ (b : Byte) (s : State), s.dec.err = true → exec (.decFeed b) s = .next (answered .malformed 0 [] [] s)) ∧
  (∀ (b : Byte) (s : State), s.dec.err = false → s.dec.pl.toNat ≤ 29 → feedLoop b s.dec = none →
    exec (.decFeed b) s = .next (answered .malformed 0 [] [] { s with dec := { pl := 0, pv := 0, err := true } })) ∧
  (∀ (b : Byte) (s : State) (out : List Byte) (cur : BitStr), s.dec.err = false → s.dec.pl.toNat ≤ 29 →
    feedLoop b s.dec = some (out, cur) →
    cur.len ≤ 29 ∧ cur.val < 2 ^ 29 ∧
    exec (.decFeed b) s =
      .next (answered .ok 0 [] out
        { s with dec := { pl := BitVec.ofNat 5 cur.len, pv := BitVec.ofNat 29 cur.val, err := false } })) ∧
  (∀ (b : Byte) (s : State), s.Inv → s.dec.err = false →
    (feedLoop b s.dec = none ↔ completesEos b s.dec = true)) ∧
  (∀ s : State, s.dec.err = true →
    exec .decFinish s = .next (answered .malformed 0 [] [] { s with dec := { pl := 0, pv := 0, err := false } }))

/-- When DEC_FEED completes and when it raises MALFORMED, on the registers alone, in a state that meets the invariant
(R124 Exceptions, R161): MALFORMED exactly when a bit is the thirtieth of 30 ones since a symbol boundary. -/
def Obligations.DecFeedCompletes : Prop :=
  ∀ (b : Byte) (s : State), s.Inv → s.dec.err = false →
    (completesEos b s.dec = false →
      ∃ out d, exec (.decFeed b) s = .next (answered .ok 0 [] out { s with dec := d }) ∧ d.err = false ∧
        out.length ≤ 2) ∧
    (completesEos b s.dec = true →
      exec (.decFeed b) s = .next (answered .malformed 0 [] [] { s with dec := { pl := 0, pv := 0, err := true } }))

/-- R126: a DEC_FEED emits at most 2 bytes, and one that fails emits none; two is reached. -/
def Obligations.DecOutputBound : Prop :=
  (∀ (b : Byte) (s t : State), exec (.decFeed b) s = .next t →
    ∃ r, t.responses = s.responses ++ [r] ∧ r.decOut.length ≤ 2 ∧ (r.code ≠ .ok → r.decOut = [])) ∧
  (∀ s : State, s.dec = { pl := 3, pv := 0, err := false } →
    exec (.decFeed 0x01) s =
      .next (answered .ok 0 [] [0x30, 0x30] { s with dec := { pl := 1, pv := 1, err := false } }))

/-- R128: in a byte whose DEC_FEED fails on a bit, no symbol completed earlier; and at least 22 pending bits came
before the byte. -/
def Obligations.FailingFeedDropsNothing : Prop :=
  ∀ (b : Byte) (s t : State) (k : Nat) (out : List Byte) (cur : BitStr),
    s.dec.err = false → exec (.decFeed b) s = .next t → t.dec.err = true →
    walk ((byteBits b).take k) s.dec.bits [] = some (out, cur) →
    out = [] ∧ (decOk s.dec = true → 22 ≤ s.dec.pl.toNat)

/-- The one stop of the model (X16, log entry 6): DEC_FEED has no step exactly with `DEC.err = 0` and 30 or more pending bits; no
other command ever stops. The model's reading of X16. -/
def Obligations.StuckExactly : Prop :=
  (∀ (b : Byte) (s : State),
    exec (.decFeed b) s = .fault .stuckPrefix ↔ s.dec.err = false ∧ 30 ≤ s.dec.pl.toNat) ∧
  (∀ (i : Instr) (s : State) (f : Fault), exec i s = .fault f → ∃ b, i = .decFeed b) ∧
  (∀ (i : Instr) (s : State) (r : Refusal), exec i s ≠ .refused r)

/-- R130: DEC_FINISH, with its code in numbers. -/
def Obligations.DecFinishResult : Prop :=
  encode .decFinish = 0x6000 ∧
  (∀ s : State, exec .decFinish s =
    .next (answered (if s.dec.err = true then .malformed else if endsClean s.dec = true then .ok else .truncated) 0 [] []
      { s with dec := { pl := 0, pv := 0, err := false } })) ∧
  (∀ s t : State, exec .decFinish s = .next t → exec (.regRead 2) t = .next (answered .ok 0x00000100 [] [] t))

/-- R29: only a DEC_FEED that answers MALFORMED sets the sticky flag; only reset, DEC_INIT and DEC_FINISH clear it; while it
is 1, DEC_FEED consumes nothing and DEC_FINISH reports MALFORMED. Over every step. -/
def Obligations.StickyFlag : Prop :=
  (∀ s t : State, step s = .next t → s.dec.err = false → t.dec.err = true →
    ∃ w rest b r, s.port = .command w :: rest ∧ decode w = .ok (.decFeed b) ∧
      t.responses = s.responses ++ [r] ∧ r.code = .malformed) ∧
  (∀ s t : State, step s = .next t → s.dec.err = true → t.dec.err = false →
    ∃ rest, s.port = .reset :: rest ∨ s.port = .command 0x4000 :: rest ∨ s.port = .command 0x6000 :: rest) ∧
  (∀ (b : Byte) (s : State), s.dec.err = true → exec (.decFeed b) s = .next (answered .malformed 0 [] [] s)) ∧
  (∀ s : State, s.dec.err = true →
    exec .decFinish s = .next (answered .malformed 0 [] [] { s with dec := { pl := 0, pv := 0, err := false } })) ∧
  State.reset.dec.err = false

/-- R127: the nibble form and the bit-serial form of DEC_FEED agree in every state and on every byte (R10: DEC_STRIDE cannot be
observed). -/
def Obligations.NibbleFormEqualsBitForm : Prop :=
  ∀ (b : Byte) (s : State), decFeedWith .nibble b s = decFeedWith .bit b s

/-- R133: the decoder's command sequence, from any decoder state and with other commands between, gives `huff_decode` of the
bytes, response by response, and ends at the decoder's reset state. -/
def Obligations.DecodeSequenceLaw : Prop :=
  ∀ (s : State) (x : List Byte) (is : List Instr) (rest : List HostInput),
    is.filter isDecoder = decodeCall x → s.port = inputsOf is ++ rest →
    ∃ t rs, Host.Core.run core is.length s = .next t ∧ t.responses = s.responses ++ rs ∧ rs.length = is.length ∧
      t.dec = { pl := 0, pv := 0, err := false } ∧ t.port = rest ∧
      (∀ out, huffDecode x = .ok out →
        (decoderResponses is rs).map Response.code = List.replicate (x.length + 2) .ok ∧
        decOutBytes (decoderResponses is rs) = out) ∧
      (huffDecode x = .malformed → ∃ j, j < x.length ∧
        walk ((x.take j).flatMap byteBits) BitStr.empty [] ≠ none ∧
        walk ((x.take (j + 1)).flatMap byteBits) BitStr.empty [] = none ∧
        (decoderResponses is rs).map Response.code =
          List.replicate (j + 1) .ok ++ List.replicate (x.length - j + 1) .malformed ∧
        decOutBytes ((decoderResponses is rs).drop (j + 1)) = []) ∧
      (huffDecode x = .truncated →
        (decoderResponses is rs).map Response.code = List.replicate (x.length + 1) .ok ++ [.truncated])

/-- R134: the round trip, for every byte string. -/
def Obligations.RoundTrip : Prop := ∀ s : List Byte, huffDecode (huffEncode s) = .ok s

/-- R135: the decoder accepts exactly the encoder's outputs. -/
def Obligations.DecoderExactness : Prop := ∀ x out : List Byte, huffDecode x = .ok out ↔ x = huffEncode out

/-- R131 and R201 with R135: what a host that waits for an OK DEC_FINISH takes as the decoding of `x` is the string that
encodes to `x`, and it takes nothing when there is none. -/
def Obligations.HostAcceptsExactly : Prop :=
  ∀ (s t : State) (x out : List Byte) (is : List Instr) (rs : List Response) (rest : List HostInput),
    is.filter isDecoder = decodeCall x → s.port = inputsOf is ++ rest → Host.Core.run core is.length s = .next t →
    t.responses = s.responses ++ rs → (acceptDecoded (decoderResponses is rs) = some out ↔ x = huffEncode out)

/-! ### What a command leaves alone -/

/-- R69 and R37: what every command leaves unchanged. A command of one engine does not write the other's state, NOP and REG_READ write
neither, no command touches the port or an earlier response, and each gives exactly one response. -/
def Obligations.CommandFrame : Prop :=
  ∀ (i : Instr) (s t : State), exec i s = .next t →
    (isEncoder i = false → t.enc = s.enc) ∧ (isDecoder i = false → t.dec = s.dec) ∧ t.port = s.port ∧
    ∃ r, t.responses = s.responses ++ [r]

/-- R69: a command of one engine does not read the other's state: with its own engine's state equal, it writes and answers the
same. -/
def Obligations.EnginesIndependent : Prop :=
  (∀ (i : Instr) (s s' : State), isEncoder i = true → s.enc = s'.enc →
    ∃ e r, exec i s = .next { s with enc := e, responses := s.responses ++ [r] } ∧
      exec i s' = .next { s' with enc := e, responses := s'.responses ++ [r] }) ∧
  (∀ (i : Instr) (s s' : State), isDecoder i = true → s.dec = s'.dec → s.dec.pl.toNat ≤ 29 →
    ∃ d r, exec i s = .next { s with dec := d, responses := s.responses ++ [r] } ∧
      exec i s' = .next { s' with dec := d, responses := s'.responses ++ [r] })

/-- R86: which commands put bytes on which port, how many, and which put anything in DATA. -/
def Obligations.ResponseFields : Prop :=
  ∀ (i : Instr) (s t : State) (r : Response), exec i s = .next t → t.responses = s.responses ++ [r] →
    (r.encOut ≠ [] → i = .encFinish ∨ ∃ b, i = .encByte b) ∧
    (r.decOut ≠ [] → ∃ b, i = .decFeed b) ∧
    (r.encOut = [] ∨ r.decOut = []) ∧ r.encOut.length + r.decOut.length ≤ 4 ∧
    (r.data ≠ 0 → r.code = .ok ∧ ∃ j, i = .regRead j)

/-- R164: which command can report which error, and R87's numbers for the codes: ENC_INIT, ENC_BYTE, ENC_FINISH, DEC_INIT and NOP
never fail, REG_READ fails only on a reserved index, and only DEC_FEED and DEC_FINISH report MALFORMED and only DEC_FINISH
TRUNCATED. -/
def Obligations.NoOtherError : Prop :=
  (∀ (i : Instr) (s t : State) (r : Response), exec i s = .next t → t.responses = s.responses ++ [r] →
    (r.code = .malformed → i = .decFinish ∨ ∃ b, i = .decFeed b) ∧
    (r.code = .truncated → i = .decFinish ∧ s.dec.err = false ∧ endsClean s.dec = false) ∧
    (r.code = .invalid → ∃ j, i = .regRead j ∧ 4 ≤ j.toNat)) ∧
  [ResultCode.ok, .malformed, .truncated, .invalid].map ResultCode.bits = [0, 1, 2, 3]

/-! ### The two ROMs -/

/-- R21 and R26: the range of every entry, the EOS entry, and that no codeword of 7 bits or fewer is all ones. -/
def Obligations.CodeTableRanges : Prop :=
  ctRom.length = 257 ∧
  (∀ a, a ≤ 256 → 5 ≤ (ct a).len.toNat ∧ (ct a).len.toNat ≤ 30 ∧ (ct a).code.toNat < 2 ^ (ct a).len.toNat) ∧
  ct 256 = { code := 0x3fffffff, len := 30 } ∧
  (∀ k, 1 ≤ k → k ≤ 7 → (codeword 256).leading k = { len := k, val := 2 ^ k - 1 }) ∧
  (∀ a, a ≤ 256 → (ct a).len.toNat ≤ 7 → (ct a).code.toNat ≠ 2 ^ (ct a).len.toNat - 1) ∧
  (∀ k, 1 ≤ k → k ≤ 29 → isNode { len := k, val := 2 ^ k - 1 } = true)

/-- R22: the table is canonical. In the order by length and then symbol, the first code is 0 and each next code is
`(code + 1) << (len - len_prev)`. -/
def Obligations.CodeTableCanonical : Prop :=
  ∃ order : List Nat, order.Perm (List.range 257) ∧
    order.Pairwise (fun a b => lexBefore ((ct a).len.toNat, a) ((ct b).len.toNat, b)) ∧
    (ct (order.getD 0 0)).code = 0 ∧
    (∀ k, k < 256 →
      (ct (order.getD (k + 1) 0)).code.toNat =
        ((ct (order.getD k 0)).code.toNat + 1) <<<
          ((ct (order.getD (k + 1) 0)).len.toNat - (ct (order.getD k 0)).len.toNat))

/-- R23: the code is prefix-free and complete: no codeword leads another, the Kraft sum is 2^30, and every infinite bit
sequence starts with exactly one codeword. -/
def Obligations.CodeComplete : Prop :=
  (∀ a b, a ≤ 256 → b ≤ 256 → a ≠ b → (codeword a).len ≤ (codeword b).len →
    (codeword b).leading (codeword a).len ≠ codeword a) ∧
  ((List.range 257).map fun a => 2 ^ (30 - (ct a).len.toNat)).sum = 2 ^ 30 ∧
  (∀ f : Nat → Bool, ∃! a : Nat, a ≤ 256 ∧ firstBits f (codeword a).len = codeword a)

/-- R38 and R39: the 256 nodes, in order, none of 30 bits or more, how many there are of each depth, the ids that number
them, and the ids of the all-ones nodes. -/
def Obligations.NodeNumbering : Prop :=
  (∀ q : BitStr, isNode q = true ↔ q ∈ nodeList) ∧ nodeList.length = 256 ∧
  nodeList.Pairwise (fun a b => lexBefore (a.len, a.val) (b.len, b.val)) ∧
  (∀ q ∈ nodeList, q.len ≤ 29 ∧ q.val < 2 ^ q.len) ∧
  (∀ q : BitStr, isNode q = true → ∃ k, k < 256 ∧ nodeId q = some k ∧ nodeOf (BitVec.ofNat 8 k) = q) ∧
  (∀ q : BitStr, isNode q = false → nodeId q = none) ∧
  (List.range 30).map (fun l => (nodesAt l).length) =
    [1, 2, 4, 8, 16, 22, 18, 4, 2, 4, 3, 3, 4, 2, 2, 1, 2, 4, 8, 13, 18, 23, 20, 11, 10, 16, 17, 15, 1, 2] ∧
  (List.range 30).map (fun l => (nodeId { len := l, val := 2 ^ l - 1 }).getD 256) =
    [0, 2, 6, 14, 30, 52, 70, 74, 76, 80, 83, 86, 90, 92, 94, 95, 97, 101, 109, 122, 140, 163, 183, 194, 204, 220, 237,
      252, 253, 255]

/-- R40: the dead end of `dstep` is never taken: one more bit after a node makes a codeword or a node, and not both. -/
def Obligations.NoDeadEnd : Prop :=
  ∀ (q : BitStr) (b : Bool), isNode q = true →
    ((findSymbol (q.push b)).isSome = true ∧ isNode (q.push b) = false) ∨
    (findSymbol (q.push b) = none ∧ isNode (q.push b) = true)

/-- R41: the layout of a DAROM word, as a number and as fields read back from the ROM. -/
def Obligations.DaromLayout : Prop :=
  (∀ e : DaEntry, e.word.toNat =
    e.next.toNat + e.sym.toNat * 2 ^ 8 + e.emit.toNat * 2 ^ 17 + e.accept.toNat * 2 ^ 18 + e.fail.toNat * 2 ^ 19) ∧
  (∀ (q : BitVec 8) (nib : BitVec 4), da q nib = daEntry q nib) ∧
  (∀ (q : BitVec 8) (nib : BitVec 4), (da q nib).sym.toNat ≤ 255 ∧
    ((da q nib).emit = false → (da q nib).sym = 0) ∧
    ((da q nib).fail = true → (da q nib).next = 0 ∧ (da q nib).accept = false ∧ (da q nib).emit = false))

/-- R42 (a), (b) and (e): at most one symbol a nibble, the 15 failing entries, and row 0. -/
def Obligations.DaromProperties : Prop :=
  (∀ (q : BitStr) (nib : BitVec 4) (out : List Byte) (cur : BitStr),
    walk (nibbleBits nib) q [] = some (out, cur) → out.length ≤ 1) ∧
  (∀ (q : BitVec 8) (nib : BitVec 4), (da q nib).fail = true ↔
    (q = 237 ∧ 15 ≤ nib.toNat) ∨ (q = 252 ∧ 14 ≤ nib.toNat) ∨ (q = 253 ∧ 12 ≤ nib.toNat) ∨ (q = 255 ∧ 8 ≤ nib.toNat)) ∧
  (∀ nib : BitVec 4, da 0 nib =
    { fail := false, accept := nib == 15, emit := false, sym := 0, next := 15 + nib.zeroExtend 8 })

/-! ### The command text -/

/-- R89: each command assembles to `(OP << 12) | OPND`, and a byte or index outside its range is an error. -/
def Obligations.AssembledWords : Prop :=
  (∀ i : Instr, encode i = ((fieldsOf i).op.zeroExtend 16 <<< 12) ||| (fieldsOf i).opnd.zeroExtend 16) ∧
  (∀ n : Nat, n < 256 →
    assemble (.encByte (.num n)) = .ok [BitVec.ofNat 16 (0x2000 + n)] ∧
    assemble (.decFeed (.num n)) = .ok [BitVec.ofNat 16 (0x5000 + n)] ∧
    assemble (.regRead (.num n)) = .ok [BitVec.ofNat 16 (0x7000 + n)]) ∧
  (∀ n : Nat, 256 ≤ n →
    assemble (.encByte (.num n)) = .error .outOfRange ∧ assemble (.decFeed (.num n)) = .error .outOfRange ∧
    assemble (.regRead (.num n)) = .error .outOfRange)

/-- R90: the words of the four pseudo-instructions. -/
def Obligations.PseudoExpansions : Prop :=
  (∀ text : List Byte,
    assemble (.encStr text) = .ok (text.map fun b => BitVec.ofNat 16 (0x2000 + b.toNat)) ∧
    assemble (.encodeText text) =
      .ok ([0x1000] ++ (text.map fun b => BitVec.ofNat 16 (0x2000 + b.toNat)) ++ [0x3000])) ∧
  (∀ ns : List Nat, (∀ n ∈ ns, n < 256) →
    assemble (.decBytes (ns.map .num)) = .ok (ns.map fun n => BitVec.ofNat 16 (0x5000 + n)) ∧
    assemble (.decodeBytes (ns.map .num)) =
      .ok ([0x4000] ++ (ns.map fun n => BitVec.ofNat 16 (0x5000 + n)) ++ [0x6000]))
end

