-- ==== Sys2Proof/Laws/BitString.lean ====
section
/-! SUPPORT. The small laws of bit strings (R12): lengths, the range condition, and how the operations compose. -/

namespace Sys2Proof.Machine

@[simp] theorem BitStr.empty_len : BitStr.empty.len = 0 := rfl
@[simp] theorem BitStr.empty_val : BitStr.empty.val = 0 := rfl
@[simp] theorem BitStr.push_len (q : BitStr) (b : Bool) : (q.push b).len = q.len + 1 := rfl
@[simp] theorem BitStr.push_val (q : BitStr) (b : Bool) : (q.push b).val = 2 * q.val + b.toNat := rfl
@[simp] theorem BitStr.concat_len (a b : BitStr) : (a.concat b).len = a.len + b.len := rfl
@[simp] theorem BitStr.concat_val (a b : BitStr) : (a.concat b).val = a.val * 2 ^ b.len + b.val := rfl
@[simp] theorem BitStr.leading_len (k : Nat) (q : BitStr) : (q.leading k).len = k := rfl
@[simp] theorem BitStr.leading_val (k : Nat) (q : BitStr) : (q.leading k).val = q.val >>> (q.len - k) := rfl
@[simp] theorem BitStr.leftover_len (q : BitStr) : q.leftover.len = q.len % 8 := rfl
@[simp] theorem BitStr.leftover_val (q : BitStr) : q.leftover.val = q.val % 2 ^ (q.len % 8) := rfl

@[simp] theorem BitStr.inRange_iff (q : BitStr) : q.inRange = true ↔ q.val < 2 ^ q.len := by
  simp [BitStr.inRange]

@[simp] theorem BitStr.fullBytes_length (q : BitStr) : q.fullBytes.length = q.len / 8 := by
  simp [BitStr.fullBytes]

@[ext] theorem BitStr.ext_len_val {a b : BitStr} (hl : a.len = b.len) (hv : a.val = b.val) : a = b := by
  cases a; cases b; simp_all

theorem BitStr.concat_empty (a : BitStr) : a.concat BitStr.empty = a := by
  ext <;> simp

theorem BitStr.empty_concat (a : BitStr) : BitStr.empty.concat a = a := by
  ext <;> simp

theorem BitStr.concat_assoc (a b c : BitStr) : (a.concat b).concat c = a.concat (b.concat c) := by
  ext
  · simp [Nat.add_assoc]
  · simp only [BitStr.concat_val, BitStr.concat_len, Nat.pow_add]
    ring

theorem BitStr.inRange_push {q : BitStr} (b : Bool) (h : q.val < 2 ^ q.len) :
    (q.push b).val < 2 ^ (q.push b).len := by
  have hb : b.toNat ≤ 1 := Bool.toNat_le b
  rw [BitStr.push_val, BitStr.push_len, Nat.pow_succ]
  omega

theorem BitStr.inRange_concat {a b : BitStr} (ha : a.val < 2 ^ a.len) (hb : b.val < 2 ^ b.len) :
    (a.concat b).val < 2 ^ (a.concat b).len := by
  rw [BitStr.concat_val, BitStr.concat_len, Nat.pow_add]
  calc a.val * 2 ^ b.len + b.val < a.val * 2 ^ b.len + 2 ^ b.len := by omega
    _ = (a.val + 1) * 2 ^ b.len := by ring
    _ ≤ 2 ^ a.len * 2 ^ b.len := Nat.mul_le_mul_right _ ha

theorem BitStr.inRange_leftover (q : BitStr) : q.leftover.val < 2 ^ q.leftover.len :=
  Nat.mod_lt _ (Nat.two_pow_pos _)

/-- Dropping the last bit of a string undoes `push`. -/
theorem BitStr.push_shift (q : BitStr) (b : Bool) : (q.push b).val >>> 1 = q.val := by
  have hb : b.toNat ≤ 1 := Bool.toNat_le b
  rw [BitStr.push_val, Nat.shiftRight_one]
  omega

end Sys2Proof.Machine
end

