-- ==== Sys2Proof/Laws/CodeTable.lean ====
section
/-! SUPPORT. What the two searches of the code table answer (R38, R40), as propositions over CTROM, and the facts about nodes
that follow for every string. -/

namespace Sys2Proof.Machine

theorem ctRom_length : ctRom.length = 257 := by decide +kernel

/-- Every entry's length and code are in the range R21 gives, checked over the ROM. -/
theorem ctRom_range :
    ctRom.all (fun e => decide (5 ≤ e.len.toNat) && decide (e.len.toNat ≤ 30) &&
      decide (e.code.toNat < 2 ^ e.len.toNat)) = true := by decide +kernel

theorem ctRom_entry {e : CodeEntry} (h : e ∈ ctRom) :
    5 ≤ e.len.toNat ∧ e.len.toNat ≤ 30 ∧ e.code.toNat < 2 ^ e.len.toNat := by
  simpa [and_assoc] using List.all_eq_true.mp ctRom_range e h

theorem codeword_mem {k : Nat} (h : k < 257) : ct k ∈ ctRom := by
  have hk : k < ctRom.length := by rw [ctRom_length]; exact h
  simp [ct, List.getD_eq_getElem?_getD, List.getElem?_eq_getElem hk]

@[simp] theorem codeword_len (k : Nat) : (codeword k).len = (ct k).len.toNat := rfl
@[simp] theorem codeword_val (k : Nat) : (codeword k).val = (ct k).code.toNat := rfl

/-- What a found symbol says: it is a symbol, and the string is its codeword. -/
theorem findSymbol_some {w : BitStr} {k : Nat} (h : findSymbol w = some k) : k < 257 ∧ codeword k = w := by
  obtain ⟨hk, hw, -⟩ := List.findIdx?_eq_some_iff_getElem.mp h
  refine ⟨by rw [← ctRom_length]; exact hk, ?_⟩
  simp only [CodeEntry.isWord, Bool.and_eq_true, Nat.beq_eq] at hw
  ext <;> simp [ct, List.getD_eq_getElem?_getD, List.getElem?_eq_getElem hk, hw]

/-- A string that is no codeword finds no symbol, and the other way round. -/
theorem findSymbol_none {w : BitStr} : findSymbol w = none ↔ ∀ k, k < 257 → codeword k ≠ w := by
  rw [findSymbol, List.findIdx?_eq_none_iff]
  constructor
  · intro h k hk hw
    have := h (ct k) (codeword_mem hk)
    simp [CodeEntry.isWord, ← hw] at this
  · intro h e he
    obtain ⟨k, hk, rfl⟩ := List.mem_iff_getElem.mp he
    rw [Bool.eq_false_iff]
    intro hw
    simp only [CodeEntry.isWord, Bool.and_eq_true, Nat.beq_eq] at hw
    refine h k (by rw [← ctRom_length]; exact hk) ?_
    ext <;> simp [ct, List.getD_eq_getElem?_getD, List.getElem?_eq_getElem hk, hw]

/-- R38, as the rule says it: a node is shorter than some codeword and leads it. -/
theorem isNode_iff {w : BitStr} :
    isNode w = true ↔ ∃ k, k < 257 ∧ w.len < (codeword k).len ∧ (codeword k).leading w.len = w := by
  rw [isNode, List.any_eq_true]
  constructor
  · rintro ⟨e, he, h⟩
    obtain ⟨k, hk, rfl⟩ := List.mem_iff_getElem.mp he
    simp only [CodeEntry.continues, Bool.and_eq_true, Nat.blt_eq, Nat.beq_eq] at h
    refine ⟨k, by rw [← ctRom_length]; exact hk, ?_, ?_⟩
    · simpa [ct, List.getD_eq_getElem?_getD, List.getElem?_eq_getElem hk] using h.1
    · ext
      · rfl
      · simpa [ct, List.getD_eq_getElem?_getD, List.getElem?_eq_getElem hk] using h.2
  · rintro ⟨k, hk, hl, hv⟩
    refine ⟨ct k, codeword_mem hk, ?_⟩
    have := congrArg BitStr.val hv
    simp only [BitStr.leading_val, codeword_len, codeword_val] at this hl
    simp [CodeEntry.continues, hl, this]

/-- A node has at most 29 bits and is in range (R28, R38). -/
theorem isNode_bounds {w : BitStr} (h : isNode w = true) : w.len ≤ 29 ∧ w.val < 2 ^ w.len := by
  obtain ⟨k, hk, hl, hw⟩ := isNode_iff.mp h
  obtain ⟨-, h30, hc⟩ := ctRom_entry (codeword_mem hk)
  have hv := congrArg BitStr.val hw
  rw [codeword_len] at hl
  rw [BitStr.leading_val, codeword_len, codeword_val, Nat.shiftRight_eq_div_pow] at hv
  refine ⟨by omega, ?_⟩
  rw [← hv, Nat.div_lt_iff_lt_mul (Nat.two_pow_pos _), ← Nat.pow_add]
  have : w.len + ((ct k).len.toNat - w.len) = (ct k).len.toNat := by omega
  rwa [this]

/-- What leads a node is a node: one bit less. -/
theorem isNode_of_push {q : BitStr} {b : Bool} (h : isNode (q.push b) = true) : isNode q = true := by
  obtain ⟨k, hk, hl, hw⟩ := isNode_iff.mp h
  have hv := congrArg BitStr.val hw
  rw [BitStr.push_len] at hl
  refine isNode_iff.mpr ⟨k, hk, by omega, ?_⟩
  ext
  · rfl
  · rw [BitStr.leading_val, ← BitStr.push_shift q b, ← hv, BitStr.leading_val, ← Nat.shiftRight_add, BitStr.push_len]
    congr 1
    omega

/-- What a codeword extends by one bit is a node. -/
theorem isNode_of_codeword {q : BitStr} {b : Bool} {k : Nat} (h : findSymbol (q.push b) = some k) :
    isNode q = true := by
  obtain ⟨hk, hw⟩ := findSymbol_some h
  have hl := congrArg BitStr.len hw
  have hv := congrArg BitStr.val hw
  rw [BitStr.push_len] at hl
  refine isNode_iff.mpr ⟨k, hk, by omega, ?_⟩
  ext
  · rfl
  · rw [BitStr.leading_val, ← BitStr.push_shift q b, ← hv]
    congr 1
    omega

/-- The root is a node (R38). -/
theorem isNode_root : isNode BitStr.empty = true := by decide +kernel

end Sys2Proof.Machine
end

