-- ==== Sys2Proof/Laws/Automaton.lean ====
section
/-! SUPPORT. What one decode step can do (R40), and how the loop over the bits composes (R124, R121). -/

namespace Sys2Proof.Machine

/-- A step that completes a symbol: the bit ends that symbol's codeword, which is not EOS, and the walk is at the root. -/
theorem dstep_sym {q n : BitStr} {b : Bool} {a : Byte} (h : dstep q b = .sym a n) :
    ∃ k, findSymbol (q.push b) = some k ∧ k < 256 ∧ a = BitVec.ofNat 8 k ∧ n = BitStr.empty := by
  unfold dstep at h
  split at h
  · rename_i k hk
    split at h
    · cases h
    · rename_i hne
      injection h with h1 h2
      have hlt := (findSymbol_some hk).1
      have : k ≠ 256 := hne
      exact ⟨k, hk, by omega, h1.symm, h2.symm⟩
  · split at h <;> cases h

/-- A step that stays in mid-codeword: the extended string is a node and no codeword. -/
theorem dstep_mid {q n : BitStr} {b : Bool} (h : dstep q b = .mid n) :
    findSymbol (q.push b) = none ∧ isNode (q.push b) = true ∧ n = q.push b := by
  unfold dstep at h
  split at h
  · split at h <;> cases h
  · rename_i hnone
    split at h
    · rename_i hnode
      injection h with h1
      exact ⟨hnone, hnode, h1.symm⟩
    · cases h

/-- A step that fails: EOS completed, or the extended string is neither a codeword nor a node. -/
theorem dstep_fail {q : BitStr} {b : Bool} (h : dstep q b = .fail) :
    findSymbol (q.push b) = some 256 ∨ (findSymbol (q.push b) = none ∧ isNode (q.push b) = false) := by
  unfold dstep at h
  split at h
  · rename_i k hk
    split at h
    · rename_i heq
      exact Or.inl (by rw [hk, heq]; rfl)
    · cases h
  · rename_i hnone
    split at h
    · cases h
    · rename_i hnode
      exact Or.inr ⟨hnone, by simpa using hnode⟩

/-- From a string that is no node, every step fails. -/
theorem dstep_of_not_node {q : BitStr} (b : Bool) (h : isNode q = false) : dstep q b = .fail := by
  cases hd : dstep q b with
  | fail => rfl
  | sym a n =>
    obtain ⟨k, hk, -⟩ := dstep_sym hd
    rw [isNode_of_codeword hk] at h
    cases h
  | mid n =>
    rw [isNode_of_push (dstep_mid hd).2.1] at h
    cases h

/-- A step that does not fail ends at a node. -/
theorem dstep_next_node {q n : BitStr} {b : Bool} (h : (∃ a, dstep q b = .sym a n) ∨ dstep q b = .mid n) :
    isNode n = true := by
  rcases h with ⟨a, h⟩ | h
  · obtain ⟨-, -, -, -, rfl⟩ := dstep_sym h
    exact isNode_root
  · obtain ⟨-, hn, rfl⟩ := dstep_mid h
    exact hn

@[simp] theorem walk_nil (q : BitStr) (out : List Byte) : walk [] q out = some (out, q) := rfl

theorem walk_cons (b : Bool) (bs : List Bool) (q : BitStr) (out : List Byte) :
    walk (b :: bs) q out =
      match dstep q b with
      | .fail => none
      | .sym a n => walk bs n (out ++ [a])
      | .mid n => walk bs n out := rfl

/-- The symbols already collected only stand before the new ones. -/
theorem walk_out (bs : List Bool) (q : BitStr) (out : List Byte) :
    walk bs q out = (walk bs q []).map fun r => (out ++ r.1, r.2) := by
  induction bs generalizing q out with
  | nil => simp
  | cons b bs ih =>
    rw [walk_cons, walk_cons]
    cases dstep q b with
    | fail => rfl
    | sym a n =>
      simp only
      rw [ih n (out ++ [a]), ih n ([] ++ [a]), Option.map_map]
      simp [Function.comp_def, List.append_assoc]
    | mid n =>
      simp only
      exact ih n out

/-- A walk over two bit lists is one walk after the other. -/
theorem walk_append (as bs : List Bool) (q : BitStr) (out : List Byte) :
    walk (as ++ bs) q out = (walk as q out).bind fun r => walk bs r.2 r.1 := by
  induction as generalizing q out with
  | nil => rfl
  | cons a as ih =>
    rw [List.cons_append, walk_cons, walk_cons]
    cases dstep q a with
    | fail => rfl
    | sym s n => exact ih n (out ++ [s])
    | mid n => exact ih n out

/-- A walk that does not fail goes from a node to a node; over no bits it stays where it is. -/
theorem walk_node {bs : List Bool} {q cur : BitStr} {out out' : List Byte} (hq : isNode q = true)
    (h : walk bs q out = some (out', cur)) : isNode cur = true := by
  induction bs generalizing q out with
  | nil =>
    injection h with h
    injection h with _ h2
    rw [← h2]
    exact hq
  | cons b bs ih =>
    rw [walk_cons] at h
    cases hd : dstep q b with
    | fail => rw [hd] at h; cases h
    | sym a n => rw [hd] at h; exact ih (dstep_next_node (Or.inl ⟨a, hd⟩)) h
    | mid n => rw [hd] at h; exact ih (dstep_next_node (Or.inr hd)) h

@[simp] theorem byteBits_length (b : Byte) : (byteBits b).length = 8 := rfl
@[simp] theorem nibbleBits_length (nib : BitVec 4) : (nibbleBits nib).length = 4 := rfl

/-- A byte that does not fail ends at a node, from any string: its first step already needs one (R28). -/
theorem walk_byte_node {b : Byte} {q cur : BitStr} {out out' : List Byte}
    (h : walk (byteBits b) q out = some (out', cur)) : isNode cur = true := by
  by_cases hq : isNode q = true
  · exact walk_node hq h
  · rw [byteBits, walk_cons, dstep_of_not_node _ (by simpa using hq)] at h
    cases h

end Sys2Proof.Machine
end

