-- ==== Sys2Proof/Laws/CodeTree.lean ====
section
/-! SUPPORT. The code table as a binary tree, with the proof that walking the tree answers the two searches of CTROM (R23, R38):
a leaf is a codeword, a fork is a node. The kernel evaluates the tree far faster than a scan of 257 entries. -/

namespace Sys2Proof.Machine

/-- A binary code tree: a leaf is a symbol, a fork a node. -/
inductive CodeTree where
  | leaf (k : Nat)
  | fork (zero one : CodeTree)
deriving DecidableEq, Repr

/-- The tree below fifteen one bits. -/
def codeTreeDeep : CodeTree :=
    .fork (.fork (.fork (.fork (.leaf 92) (.leaf 195)) (.fork (.leaf 208) (.fork (.leaf 128) (.leaf 130)))) (.fork
    (.fork (.fork (.leaf 131) (.leaf 162)) (.fork (.leaf 184) (.leaf 194))) (.fork (.fork (.leaf 224) (.leaf 226))
    (.fork (.fork (.leaf 153) (.leaf 161)) (.fork (.leaf 167) (.leaf 172)))))) (.fork (.fork (.fork (.fork (.fork
    (.leaf 176) (.leaf 177)) (.fork (.leaf 179) (.leaf 209))) (.fork (.fork (.leaf 216) (.leaf 217)) (.fork (.leaf
    227) (.leaf 229)))) (.fork (.fork (.fork (.leaf 230) (.fork (.leaf 129) (.leaf 132))) (.fork (.fork (.leaf
    133) (.leaf 134)) (.fork (.leaf 136) (.leaf 146)))) (.fork (.fork (.fork (.leaf 154) (.leaf 156)) (.fork
    (.leaf 160) (.leaf 163))) (.fork (.fork (.leaf 164) (.leaf 169)) (.fork (.leaf 170) (.leaf 173)))))) (.fork
    (.fork (.fork (.fork (.fork (.leaf 178) (.leaf 181)) (.fork (.leaf 185) (.leaf 186))) (.fork (.fork (.leaf
    187) (.leaf 189)) (.fork (.leaf 190) (.leaf 196)))) (.fork (.fork (.fork (.leaf 198) (.leaf 228)) (.fork
    (.leaf 232) (.leaf 233))) (.fork (.fork (.fork (.leaf 1) (.leaf 135)) (.fork (.leaf 137) (.leaf 138))) (.fork
    (.fork (.leaf 139) (.leaf 140)) (.fork (.leaf 141) (.leaf 143)))))) (.fork (.fork (.fork (.fork (.fork (.leaf
    147) (.leaf 149)) (.fork (.leaf 150) (.leaf 151))) (.fork (.fork (.leaf 152) (.leaf 155)) (.fork (.leaf 157)
    (.leaf 158)))) (.fork (.fork (.fork (.leaf 165) (.leaf 166)) (.fork (.leaf 168) (.leaf 174))) (.fork (.fork
    (.leaf 175) (.leaf 180)) (.fork (.leaf 182) (.leaf 183))))) (.fork (.fork (.fork (.fork (.leaf 188) (.leaf
    191)) (.fork (.leaf 197) (.leaf 231))) (.fork (.fork (.leaf 239) (.fork (.leaf 9) (.leaf 142))) (.fork (.fork
    (.leaf 144) (.leaf 145)) (.fork (.leaf 148) (.leaf 159))))) (.fork (.fork (.fork (.fork (.leaf 171) (.leaf
    206)) (.fork (.leaf 215) (.leaf 225))) (.fork (.fork (.leaf 236) (.leaf 237)) (.fork (.fork (.leaf 199) (.leaf
    207)) (.fork (.leaf 234) (.leaf 235))))) (.fork (.fork (.fork (.fork (.fork (.leaf 192) (.leaf 193)) (.fork
    (.leaf 200) (.leaf 201))) (.fork (.fork (.leaf 202) (.leaf 205)) (.fork (.leaf 210) (.leaf 213)))) (.fork
    (.fork (.fork (.leaf 218) (.leaf 219)) (.fork (.leaf 238) (.leaf 240))) (.fork (.fork (.leaf 242) (.leaf 243))
    (.fork (.leaf 255) (.fork (.leaf 203) (.leaf 204)))))) (.fork (.fork (.fork (.fork (.fork (.leaf 211) (.leaf
    212)) (.fork (.leaf 214) (.leaf 221))) (.fork (.fork (.leaf 222) (.leaf 223)) (.fork (.leaf 241) (.leaf
    244)))) (.fork (.fork (.fork (.leaf 245) (.leaf 246)) (.fork (.leaf 247) (.leaf 248))) (.fork (.fork (.leaf
    250) (.leaf 251)) (.fork (.leaf 252) (.leaf 253))))) (.fork (.fork (.fork (.fork (.leaf 254) (.fork (.leaf 2)
    (.leaf 3))) (.fork (.fork (.leaf 4) (.leaf 5)) (.fork (.leaf 6) (.leaf 7)))) (.fork (.fork (.fork (.leaf 8)
    (.leaf 11)) (.fork (.leaf 12) (.leaf 14))) (.fork (.fork (.leaf 15) (.leaf 16)) (.fork (.leaf 17) (.leaf
    18))))) (.fork (.fork (.fork (.fork (.leaf 19) (.leaf 20)) (.fork (.leaf 21) (.leaf 23))) (.fork (.fork (.leaf
    24) (.leaf 25)) (.fork (.leaf 26) (.leaf 27)))) (.fork (.fork (.fork (.leaf 28) (.leaf 29)) (.fork (.leaf 30)
    (.leaf 31))) (.fork (.fork (.leaf 127) (.leaf 220)) (.fork (.leaf 249) (.fork (.fork (.leaf 10) (.leaf 13))
    (.fork (.leaf 22) (.leaf 256)))))))))))))))

/-- The tree below eight one bits. -/
def codeTreeLong : CodeTree :=
    .fork (.fork (.leaf 63) (.fork (.leaf 39) (.leaf 43))) (.fork (.fork (.leaf 124) (.fork (.leaf 35) (.leaf
    62))) (.fork (.fork (.fork (.leaf 0) (.leaf 36)) (.fork (.leaf 64) (.leaf 91))) (.fork (.fork (.leaf 93)
    (.leaf 126)) (.fork (.fork (.leaf 94) (.leaf 125)) (.fork (.fork (.leaf 60) (.leaf 96)) (.fork (.leaf 123)
    (codeTreeDeep)))))))

/-- The tree below a one bit. -/
def codeTreeOne : CodeTree :=
    .fork (.fork (.fork (.fork (.fork (.leaf 61) (.leaf 65)) (.fork (.leaf 95) (.leaf 98))) (.fork (.fork (.leaf
    100) (.leaf 102)) (.fork (.leaf 103) (.leaf 104)))) (.fork (.fork (.fork (.leaf 108) (.leaf 109)) (.fork
    (.leaf 110) (.leaf 112))) (.fork (.fork (.leaf 114) (.leaf 117)) (.fork (.fork (.leaf 58) (.leaf 66)) (.fork
    (.leaf 67) (.leaf 68)))))) (.fork (.fork (.fork (.fork (.fork (.leaf 69) (.leaf 70)) (.fork (.leaf 71) (.leaf
    72))) (.fork (.fork (.leaf 73) (.leaf 74)) (.fork (.leaf 75) (.leaf 76)))) (.fork (.fork (.fork (.leaf 77)
    (.leaf 78)) (.fork (.leaf 79) (.leaf 80))) (.fork (.fork (.leaf 81) (.leaf 82)) (.fork (.leaf 83) (.leaf
    84))))) (.fork (.fork (.fork (.fork (.leaf 85) (.leaf 86)) (.fork (.leaf 87) (.leaf 89))) (.fork (.fork (.leaf
    106) (.leaf 107)) (.fork (.leaf 113) (.leaf 118)))) (.fork (.fork (.fork (.leaf 119) (.leaf 120)) (.fork
    (.leaf 121) (.leaf 122))) (.fork (.fork (.fork (.leaf 38) (.leaf 42)) (.fork (.leaf 44) (.leaf 59))) (.fork
    (.fork (.leaf 88) (.leaf 90)) (.fork (.fork (.fork (.leaf 33) (.leaf 34)) (.fork (.leaf 40) (.leaf 41)))
    (codeTreeLong)))))))

/-- The tree of all 257 codewords. -/
def codeTree : CodeTree :=
    .fork (.fork (.fork (.fork (.fork (.leaf 48) (.leaf 49)) (.fork (.leaf 50) (.leaf 97))) (.fork (.fork (.leaf
    99) (.leaf 101)) (.fork (.leaf 105) (.leaf 111)))) (.fork (.fork (.fork (.leaf 115) (.leaf 116)) (.fork (.fork
    (.leaf 32) (.leaf 37)) (.fork (.leaf 45) (.leaf 46)))) (.fork (.fork (.fork (.leaf 47) (.leaf 51)) (.fork
    (.leaf 52) (.leaf 53))) (.fork (.fork (.leaf 54) (.leaf 55)) (.fork (.leaf 56) (.leaf 57)))))) (codeTreeOne)

/-- The subtree that some bits lead to. -/
def CodeTree.follow : CodeTree → List Bool → Option CodeTree
  | t, [] => some t
  | .leaf _, _ :: _ => none
  | .fork z o, b :: bs => (if b then o else z).follow bs

/-- The leaves of a tree, each with the bits that lead to it. -/
def CodeTree.leaves : CodeTree → List Bool → List (List Bool × Nat)
  | .leaf k, path => [(path, k)]
  | .fork z o, path => z.leaves (path ++ [false]) ++ o.leaves (path ++ [true])

/-- The bit string of a list of bits, first bit first (R12). -/
def ofBits (bs : List Bool) : BitStr := bs.foldl BitStr.push BitStr.empty

/-- The bits of a bit string, first bit first. -/
def bitsOf (w : BitStr) : List Bool := (List.range w.len).map fun i => w.val.testBit (w.len - 1 - i)

@[simp] theorem ofBits_nil : ofBits [] = BitStr.empty := rfl

theorem ofBits_snoc (bs : List Bool) (b : Bool) : ofBits (bs ++ [b]) = (ofBits bs).push b := by
  simp [ofBits]

@[simp] theorem ofBits_len (bs : List Bool) : (ofBits bs).len = bs.length := by
  induction bs using List.reverseRecOn with
  | nil => rfl
  | append_singleton bs b ih => simp [ofBits_snoc, ih]

theorem ofBits_append (as bs : List Bool) : ofBits (as ++ bs) = (ofBits as).concat (ofBits bs) := by
  induction bs using List.reverseRecOn with
  | nil => simp [BitStr.concat_empty]
  | append_singleton bs b ih =>
    rw [← List.append_assoc, ofBits_snoc, ofBits_snoc, ih]
    ext
    · simp [Nat.add_assoc]
    · simp only [BitStr.push_val, BitStr.concat_val, BitStr.push_len, Nat.pow_succ]
      ring

theorem ofBits_inRange (bs : List Bool) : (ofBits bs).val < 2 ^ bs.length := by
  induction bs using List.reverseRecOn with
  | nil => decide
  | append_singleton bs b ih =>
    rw [ofBits_snoc]
    have h := BitStr.inRange_push (q := ofBits bs) b (by simpa using ih)
    simpa using h

theorem ofBits_injective {as bs : List Bool} (h : ofBits as = ofBits bs) : as = bs := by
  induction as using List.reverseRecOn generalizing bs with
  | nil =>
    have hl := congrArg BitStr.len h
    simp only [ofBits_len, List.length_nil] at hl
    exact (List.eq_nil_of_length_eq_zero hl.symm).symm
  | append_singleton as a ih =>
    rcases List.eq_nil_or_concat bs with rfl | ⟨bs', b, rfl⟩
    · simpa using congrArg BitStr.len h
    · rw [List.concat_eq_append] at h ⊢
      rw [ofBits_snoc, ofBits_snoc] at h
      have hl := congrArg BitStr.len h
      have hv := congrArg BitStr.val h
      simp only [BitStr.push_len, BitStr.push_val] at hl hv
      have ha : a.toNat ≤ 1 := Bool.toNat_le a
      have hb : b.toNat ≤ 1 := Bool.toNat_le b
      have hq : ofBits as = ofBits bs' := by ext <;> omega
      have hab : a = b := by
        have : a.toNat = b.toNat := by omega
        cases a <;> cases b <;> simp_all
      rw [ih hq, hab]

/-- The first bits of a list are what leads its string. -/
theorem leading_ofBits (as bs : List Bool) : (ofBits (as ++ bs)).leading as.length = ofBits as := by
  ext
  · simp
  · rw [BitStr.leading_val, ofBits_append, BitStr.concat_val, BitStr.concat_len, ofBits_len, ofBits_len,
      Nat.add_sub_cancel_left, Nat.shiftRight_eq_div_pow, Nat.add_comm, Nat.add_mul_div_right _ _ (Nat.two_pow_pos _),
      Nat.div_eq_of_lt (ofBits_inRange bs), Nat.zero_add]

theorem follow_append (t : CodeTree) (as bs : List Bool) :
    t.follow (as ++ bs) = (t.follow as).bind fun u => u.follow bs := by
  induction as generalizing t with
  | nil => simp [CodeTree.follow]
  | cons a as ih =>
    cases t with
    | leaf k => simp [CodeTree.follow]
    | fork z o => simpa [CodeTree.follow] using ih (if a then o else z)

/-- A leaf that bits lead to stands among the leaves. -/
theorem mem_leaves {t : CodeTree} {bs : List Bool} {k : Nat} (path : List Bool) (h : t.follow bs = some (.leaf k)) :
    (path ++ bs, k) ∈ t.leaves path := by
  induction t generalizing bs path with
  | leaf j =>
    cases bs with
    | nil => simpa [CodeTree.follow, CodeTree.leaves, eq_comm] using h
    | cons b bs => simp [CodeTree.follow] at h
  | fork z o hz ho =>
    cases bs with
    | nil => simp [CodeTree.follow] at h
    | cons b bs =>
      have happ : path ++ b :: bs = (path ++ [b]) ++ bs := by simp
      rw [CodeTree.leaves, List.mem_append, happ]
      cases b with
      | false => exact Or.inl (hz _ (by simpa [CodeTree.follow] using h))
      | true => exact Or.inr (ho _ (by simpa [CodeTree.follow] using h))

/-- Every tree has a leaf. -/
theorem exists_leaf (t : CodeTree) : ∃ bs k, t.follow bs = some (.leaf k) := by
  induction t with
  | leaf k => exact ⟨[], k, rfl⟩
  | fork z o hz _ =>
    obtain ⟨bs, k, h⟩ := hz
    exact ⟨false :: bs, k, by simpa [CodeTree.follow] using h⟩

/-- Each leaf of the tree is a symbol, and its path is the symbol's codeword; checked over the 257 leaves. -/
theorem leaves_are_codewords :
    (codeTree.leaves []).all (fun p => decide (p.2 < 257) && decide (codeword p.2 = ofBits p.1)) = true := by
  decide +kernel

/-- Each symbol's codeword leads to its leaf; checked over the 257 symbols. -/
theorem codewords_are_leaves :
    (List.range 257).all (fun k => decide (ofBits (bitsOf (codeword k)) = codeword k) &&
      decide (codeTree.follow (bitsOf (codeword k)) = some (.leaf k))) = true := by
  decide +kernel

theorem codeword_of_leaf {bs : List Bool} {k : Nat} (h : codeTree.follow bs = some (.leaf k)) :
    k < 257 ∧ codeword k = ofBits bs := by
  have := List.all_eq_true.mp leaves_are_codewords _ (mem_leaves [] h)
  simpa using this

theorem leaf_of_codeword {k : Nat} (h : k < 257) :
    ∃ bs, codeword k = ofBits bs ∧ codeTree.follow bs = some (.leaf k) := by
  have := List.all_eq_true.mp codewords_are_leaves k (List.mem_range.mpr h)
  simp only [Bool.and_eq_true, decide_eq_true_eq] at this
  exact ⟨_, this.1.symm, this.2⟩

/-- Bits lead to a leaf exactly when they are its codeword (R40's search). -/
theorem findSymbol_ofBits {bs : List Bool} {k : Nat} :
    findSymbol (ofBits bs) = some k ↔ codeTree.follow bs = some (.leaf k) := by
  have back : ∀ j, findSymbol (ofBits bs) = some j → codeTree.follow bs = some (.leaf j) := by
    intro j hj
    obtain ⟨hlt, hw⟩ := findSymbol_some hj
    obtain ⟨cs, hc, hf⟩ := leaf_of_codeword hlt
    rwa [← ofBits_injective (hc.symm.trans hw)]
  refine ⟨back k, fun h => ?_⟩
  obtain ⟨hlt, hw⟩ := codeword_of_leaf h
  cases hf : findSymbol (ofBits bs) with
  | none => exact absurd hw (findSymbol_none.mp hf k hlt)
  | some j =>
    have := back j hf
    rw [h] at this
    injection this with this
    injection this with this
    rw [this]

/-- Bits lead to a fork exactly when they are a node (R38's search). -/
theorem isNode_ofBits {bs : List Bool} :
    isNode (ofBits bs) = true ↔ ∃ z o, codeTree.follow bs = some (.fork z o) := by
  rw [isNode_iff]
  constructor
  · rintro ⟨k, hk, hl, hw⟩
    obtain ⟨cs, hc, hf⟩ := leaf_of_codeword hk
    rw [hc, ofBits_len, ofBits_len] at hl
    have hsplit : cs.take bs.length ++ cs.drop bs.length = cs := List.take_append_drop _ _
    have htake : (cs.take bs.length).length = bs.length := by simp; omega
    have hbs : cs.take bs.length = bs := by
      apply ofBits_injective
      rw [← leading_ofBits (cs.take bs.length) (cs.drop bs.length), hsplit, htake, ← hc]
      simpa using hw
    rw [← hsplit, hbs, follow_append] at hf
    cases ht : codeTree.follow bs with
    | none => rw [ht] at hf; cases hf
    | some t =>
      rw [ht] at hf
      cases t with
      | fork z o => exact ⟨z, o, rfl⟩
      | leaf j =>
        cases hd : cs.drop bs.length with
        | nil =>
          have := congrArg List.length hd
          simp at this
          omega
        | cons d ds =>
          rw [hd] at hf
          simp [CodeTree.follow] at hf
  · rintro ⟨z, o, hf⟩
    obtain ⟨cs, k, hc⟩ := exists_leaf z
    have hleaf : codeTree.follow (bs ++ false :: cs) = some (.leaf k) := by
      rw [follow_append, hf]
      simpa [CodeTree.follow] using hc
    obtain ⟨hlt, hw⟩ := codeword_of_leaf hleaf
    refine ⟨k, hlt, ?_, ?_⟩
    · rw [hw]
      simp
    · rw [hw, ofBits_len]
      exact leading_ofBits bs (false :: cs)

/-- Every string in range is the string of some bits, so the two searches are decided for all of them. -/
theorem exists_ofBits {w : BitStr} (h : w.val < 2 ^ w.len) : ∃ bs, ofBits bs = w := by
  obtain ⟨l, v⟩ := w
  induction l generalizing v with
  | zero =>
    refine ⟨[], ?_⟩
    ext
    · rfl
    · simp only [pow_zero] at h
      simp only [ofBits_nil, BitStr.empty_val]
      omega
  | succ l ih =>
    have hv : v / 2 < 2 ^ l := by
      simp only [Nat.pow_succ] at h
      omega
    obtain ⟨bs, hb⟩ := ih (v / 2) hv
    refine ⟨bs ++ [decide (v % 2 = 1)], ?_⟩
    rw [ofBits_snoc, hb]
    ext
    · rfl
    · simp only [BitStr.push_val]
      rcases Nat.mod_two_eq_zero_or_one v with h2 | h2 <;> simp [h2] <;> omega

end Sys2Proof.Machine
end

