-- ==== Sys2Proof/Laws/State.lean ====
section
/-! SUPPORT. One lemma per field of State for each operation that updates the state, so that no later proof unfolds a record
update. -/

namespace Sys2Proof.Machine

variable (s : State)

@[simp] theorem setEnc_enc (q : BitStr) : (setEnc q s).enc = encOf q := rfl
@[simp] theorem setEnc_dec (q : BitStr) : (setEnc q s).dec = s.dec := rfl
@[simp] theorem setEnc_port (q : BitStr) : (setEnc q s).port = s.port := rfl
@[simp] theorem setEnc_responses (q : BitStr) : (setEnc q s).responses = s.responses := rfl

@[simp] theorem setDecBits_enc (q : BitStr) : (setDecBits q s).enc = s.enc := rfl
@[simp] theorem setDecBits_dec (q : BitStr) : (setDecBits q s).dec = decOf q s.dec.err := rfl
@[simp] theorem setDecBits_port (q : BitStr) : (setDecBits q s).port = s.port := rfl
@[simp] theorem setDecBits_responses (q : BitStr) : (setDecBits q s).responses = s.responses := rfl

@[simp] theorem setDec_enc (q : BitStr) (err : Bool) : (setDec q err s).enc = s.enc := rfl
@[simp] theorem setDec_dec (q : BitStr) (err : Bool) : (setDec q err s).dec = decOf q err := rfl
@[simp] theorem setDec_port (q : BitStr) (err : Bool) : (setDec q err s).port = s.port := rfl
@[simp] theorem setDec_responses (q : BitStr) (err : Bool) : (setDec q err s).responses = s.responses := rfl

@[simp] theorem respond_enc (r : Response) : (respond r s).enc = s.enc := rfl
@[simp] theorem respond_dec (r : Response) : (respond r s).dec = s.dec := rfl
@[simp] theorem respond_port (r : Response) : (respond r s).port = s.port := rfl
@[simp] theorem respond_responses (r : Response) : (respond r s).responses = s.responses ++ [r] := rfl

@[simp] theorem reply_enc (c : ResultCode) (d : Word32) : (reply c d s).enc = s.enc := rfl
@[simp] theorem reply_dec (c : ResultCode) (d : Word32) : (reply c d s).dec = s.dec := rfl
@[simp] theorem reply_port (c : ResultCode) (d : Word32) : (reply c d s).port = s.port := rfl
@[simp] theorem reply_responses (c : ResultCode) (d : Word32) : (reply c d s).responses = s.responses ++ [{ code := c, data := d, encOut := [], decOut := [] }] := rfl

@[simp] theorem replyEnc_enc (out : List Byte) : (replyEnc out s).enc = s.enc := rfl
@[simp] theorem replyEnc_dec (out : List Byte) : (replyEnc out s).dec = s.dec := rfl
@[simp] theorem replyEnc_port (out : List Byte) : (replyEnc out s).port = s.port := rfl
@[simp] theorem replyEnc_responses (out : List Byte) : (replyEnc out s).responses = s.responses ++ [{ code := .ok, data := 0, encOut := out, decOut := [] }] := rfl

@[simp] theorem replyDec_enc (out : List Byte) : (replyDec out s).enc = s.enc := rfl
@[simp] theorem replyDec_dec (out : List Byte) : (replyDec out s).dec = s.dec := rfl
@[simp] theorem replyDec_port (out : List Byte) : (replyDec out s).port = s.port := rfl
@[simp] theorem replyDec_responses (out : List Byte) : (replyDec out s).responses = s.responses ++ [{ code := .ok, data := 0, encOut := [], decOut := out }] := rfl

@[simp] theorem raise_enc (c : ResultCode) : (raise c s).enc = s.enc := rfl
@[simp] theorem raise_dec (c : ResultCode) : (raise c s).dec = s.dec := rfl
@[simp] theorem raise_port (c : ResultCode) : (raise c s).port = s.port := rfl
@[simp] theorem raise_responses (c : ResultCode) : (raise c s).responses = s.responses ++ [{ code := c, data := 0, encOut := [], decOut := [] }] := rfl

@[simp] theorem clearDec_enc : (clearDec s).enc = s.enc := rfl
@[simp] theorem clearDec_dec : (clearDec s).dec = { pl := 0, pv := 0, err := false } := rfl
@[simp] theorem clearDec_port : (clearDec s).port = s.port := rfl
@[simp] theorem clearDec_responses : (clearDec s).responses = s.responses := rfl

@[simp] theorem clearEnc_enc : (clearEnc s).enc = { n := 0, v := 0 } := rfl
@[simp] theorem clearEnc_dec : (clearEnc s).dec = s.dec := rfl
@[simp] theorem clearEnc_port : (clearEnc s).port = s.port := rfl
@[simp] theorem clearEnc_responses : (clearEnc s).responses = s.responses := rfl

@[simp] theorem malformed_enc : (malformed s).enc = s.enc := rfl
@[simp] theorem malformed_dec : (malformed s).dec = { pl := 0, pv := 0, err := true } := rfl
@[simp] theorem malformed_port : (malformed s).port = s.port := rfl
@[simp] theorem malformed_responses : (malformed s).responses = s.responses ++ [{ code := .malformed, data := 0, encOut := [], decOut := [] }] := rfl

@[simp] theorem illegal_enc : (illegal s).enc = s.enc := rfl
@[simp] theorem illegal_dec : (illegal s).dec = s.dec := rfl
@[simp] theorem illegal_port : (illegal s).port = s.port := rfl
@[simp] theorem illegal_responses : (illegal s).responses = s.responses ++ [{ code := .invalid, data := 0, encOut := [], decOut := [] }] := rfl

@[simp] theorem resetBlock_enc : (resetBlock s).enc = { n := 0, v := 0 } := rfl
@[simp] theorem resetBlock_dec : (resetBlock s).dec = { pl := 0, pv := 0, err := false } := rfl
@[simp] theorem resetBlock_port : (resetBlock s).port = s.port := rfl
@[simp] theorem resetBlock_responses : (resetBlock s).responses = s.responses := rfl

@[simp] theorem placeCommand_enc (w : Command) : (placeCommand w s).enc = s.enc := rfl
@[simp] theorem placeCommand_dec (w : Command) : (placeCommand w s).dec = s.dec := rfl
@[simp] theorem placeCommand_port (w : Command) : (placeCommand w s).port = .command w :: s.port := rfl
@[simp] theorem placeCommand_responses (w : Command) : (placeCommand w s).responses = s.responses := rfl

@[simp] theorem answered_enc (c : ResultCode) (d : Word32) (eo dout : List Byte) : (answered c d eo dout s).enc = s.enc := rfl
@[simp] theorem answered_dec (c : ResultCode) (d : Word32) (eo dout : List Byte) : (answered c d eo dout s).dec = s.dec := rfl
@[simp] theorem answered_port (c : ResultCode) (d : Word32) (eo dout : List Byte) : (answered c d eo dout s).port = s.port := rfl
@[simp] theorem answered_responses (c : ResultCode) (d : Word32) (eo dout : List Byte) : (answered c d eo dout s).responses = s.responses ++ [{ code := c, data := d, encOut := eo, decOut := dout }] := rfl

end Sys2Proof.Machine
end

