-- ==== Sys2Proof/Laws/Ops.lean ====
section
/-! SUPPORT. What the shared operations and the step can do, said once: the responding operations as `answered`, one inversion
lemma for DEC_FEED, one for the step. -/

namespace Sys2Proof.Machine

theorem reply_eq_answered (c : ResultCode) (d : Word32) (s : State) : reply c d s = answered c d [] [] s := rfl
theorem replyEnc_eq_answered (out : List Byte) (s : State) : replyEnc out s = answered .ok 0 out [] s := rfl
theorem replyDec_eq_answered (out : List Byte) (s : State) : replyDec out s = answered .ok 0 [] out s := rfl
theorem raise_eq_answered (c : ResultCode) (s : State) : raise c s = answered c 0 [] [] s := rfl

theorem takeInput_empty {s : State} (h : s.port = []) : takeInput s = none := by
  simp [takeInput, h]

theorem takeInput_cons {s : State} {i : HostInput} {rest : List HostInput} (h : s.port = i :: rest) :
    takeInput s = some (i, { s with port := rest }) := by
  simp [takeInput, h]

/-- The registers hold a string of at most 7 bits exactly (R27). -/
theorem encOf_bits {q : BitStr} (hl : q.len < 8) (hv : q.val < 2 ^ 7) : (encOf q).bits = q := by
  ext
  · simp [encOf, Enc.bits, Nat.mod_eq_of_lt hl]
  · simpa [encOf, Enc.bits] using hv

/-- The registers hold a node exactly (R28). -/
theorem decOf_bits {q : BitStr} (err : Bool) (h : isNode q = true) : (decOf q err).bits = q := by
  obtain ⟨hl, hv⟩ := isNode_bounds h
  have hl' : q.len < 2 ^ 5 := by omega
  have hv' : q.val < 2 ^ 29 := lt_of_lt_of_le hv (Nat.pow_le_pow_right (by decide) hl)
  ext
  · simpa [decOf, Dec.bits] using Nat.mod_eq_of_lt hl'
  · simpa [decOf, Dec.bits] using Nat.mod_eq_of_lt hv'

/-- What a DEC_FEED that answers can have done (R124, R125): the sticky repeat, the MALFORMED exit, or a byte consumed. -/
theorem decFeedWith_next {st : Stride} {b : Byte} {s t : State} (h : decFeedWith st b s = .next t) :
    (s.dec.err = true ∧ t = raise .malformed s) ∨
    (s.dec.err = false ∧ s.dec.pl.toNat < 30 ∧ consumeByte st b s.dec.bits = none ∧ t = malformed s) ∨
    (s.dec.err = false ∧ s.dec.pl.toNat < 30 ∧ ∃ out cur, consumeByte st b s.dec.bits = some (out, cur) ∧
      t = replyDec out (setDecBits cur s)) := by
  unfold decFeedWith at h
  split at h
  · rename_i herr
    exact Or.inl ⟨herr, by simpa using h.symm⟩
  · rename_i herr
    have he : s.dec.err = false := by simpa using herr
    split at h
    · cases h
    · rename_i hpl
      have hlt : s.dec.pl.toNat < 30 := Nat.lt_of_not_le hpl
      split at h
      · rename_i hc
        exact Or.inr (Or.inl ⟨he, hlt, hc, by simpa using h.symm⟩)
      · rename_i out cur hc
        exact Or.inr (Or.inr ⟨he, hlt, out, cur, hc, by simpa using h.symm⟩)

/-- The register space (R30): a value at indices 0 to 3, none above. -/
theorem readRegister_reserved {i : Nat} (s : State) (h : 4 ≤ i) : readRegister i s = none := by
  obtain ⟨k, rfl⟩ : ∃ k, i = k + 4 := ⟨i - 4, by omega⟩
  rfl

@[simp] theorem readRegister_id (s : State) : readRegister 0 s = some regId := rfl
@[simp] theorem readRegister_encStatus (s : State) : readRegister 1 s = some (regEncStatus s) := rfl
@[simp] theorem readRegister_decStatus (s : State) : readRegister 2 s = some (regDecStatus s) := rfl
@[simp] theorem readRegister_decPrefix (s : State) : readRegister 3 s = some (regDecPrefix s) := rfl

/-- What a step that answers can have done: nothing to take, a reset, a command, or an ILLEGAL word. -/
theorem step_cases {s t : State} (h : step s = .next t) :
    (s.port = [] ∧ t = s) ∨
    (∃ rest, s.port = .reset :: rest ∧ t = resetBlock { s with port := rest }) ∨
    (∃ w rest i, s.port = .command w :: rest ∧ decode w = .ok i ∧ exec i { s with port := rest } = .next t) ∨
    (∃ w rest e, s.port = .command w :: rest ∧ decode w = .error e ∧ t = illegal { s with port := rest }) := by
  unfold step at h
  cases hp : s.port with
  | nil =>
    rw [takeInput_empty hp] at h
    exact Or.inl ⟨rfl, by simpa using h.symm⟩
  | cons i rest =>
    rw [takeInput_cons hp] at h
    cases i with
    | reset => exact Or.inr (Or.inl ⟨rest, rfl, by simpa using h.symm⟩)
    | command w =>
      simp only at h
      cases hd : decode w with
      | ok i =>
        rw [hd] at h
        exact Or.inr (Or.inr (Or.inl ⟨w, rest, i, rfl, hd, h⟩))
      | error e =>
        rw [hd] at h
        exact Or.inr (Or.inr (Or.inr ⟨w, rest, e, rfl, hd, by simpa using h.symm⟩))

end Sys2Proof.Machine
end

