-- ==== Sys2Proof/Laws/PerInstr.lean ====
section
/-! SUPPORT. Per-instruction lemmas. Family EncodeLegal: in every command's word bit 15 and the RSV field are zero (R81, R82: the
defined opcodes are 0x0 to 0x7). -/

namespace Sys2Proof.Laws.EncodeLegal

/-- Bit 15 and bits 11 to 8 of the command's word are 0. -/
def Statement (i : Instr) : Prop := encode i &&& 0x8F00 = 0

theorem nop : Statement .nop := by unfold Statement; decide
theorem encInit : Statement .encInit := by unfold Statement; decide
theorem encByte (b : Byte) : Statement (.encByte b) := by revert b; unfold Statement; decide +kernel
theorem encFinish : Statement .encFinish := by unfold Statement; decide
theorem decInit : Statement .decInit := by unfold Statement; decide
theorem decFeed (b : Byte) : Statement (.decFeed b) := by revert b; unfold Statement; decide +kernel
theorem decFinish : Statement .decFinish := by unfold Statement; decide
theorem regRead (i : Byte) : Statement (.regRead i) := by revert i; unfold Statement; decide +kernel

end Sys2Proof.Laws.EncodeLegal
end

