-- ==== Sys2Proof/Tests/Slice0.lean ====
section
/-! SUPPORT. Tests of single steps against the worked values of spec/95_test_vectors.md (named in each comment), the smoke tests of
the well-formedness checks, and one witness for each hypothesis of a statement. -/

namespace Sys2Proof.Tests

open Sys2Proof Sys2Proof.Machine

/-! ### Helpers -/

/-- The next state of an outcome, if it is one. -/
def nextOf (o : Host.Outcome State Fault Refusal) : Option State :=
  match o with
  | .next s => some s
  | .fault _ => none
  | .refused _ => none

theorem exists_next {o : Host.Outcome State Fault Refusal} (h : (nextOf o).isSome = true) : ∃ t, o = .next t := by
  cases o with
  | next t => exact ⟨t, rfl⟩
  | fault r => cases h
  | refused r => cases h

/-- ENC(n, v) and DEC(pl, pv, err), nothing issued. -/
def st (n v pl pv : Nat) (err : Bool) : State :=
  { enc := { n := BitVec.ofNat 3 n, v := BitVec.ofNat 7 v },
    dec := { pl := BitVec.ofNat 5 pl, pv := BitVec.ofNat 29 pv, err := err }, port := [], responses := [] }

/-- The state `s` with one word issued. -/
def issued (w : Command) (s : State) : State := { s with port := [.command w] }

/-- The last response of a step, and the engine state after it. -/
def result (o : Host.Outcome State Fault Refusal) : Option (Option Response × Enc × Dec) :=
  (nextOf o).map fun t => (t.responses.getLast?, t.enc, t.dec)

/-- What `result` gives for a response and an engine state. -/
def gives (c : ResultCode) (d : Word32) (eo dout : List Byte) (s : State) : Option (Option Response × Enc × Dec) :=
  some (some { code := c, data := d, encOut := eo, decOut := dout }, s.enc, s.dec)

/-! ### Well-formedness smoke tests: an ill-formed term for each check -/

theorem test_wf_rsv : ({ op := 0x2, rsv := 0x1, opnd := 0x41 } : Fields).rsvZero = false := by decide
theorem test_wf_op : ({ op := 0x8, rsv := 0, opnd := 0 } : Fields).opDefined = false := by decide
theorem test_wf_opnd : ({ op := 0x6, rsv := 0, opnd := 0x01 } : Fields).opndAllowed = false := by decide
theorem test_wf_whole : ({ op := 0x1, rsv := 0, opnd := 0x01 } : Fields).wellFormed = false ∧
    ({ op := 0x7, rsv := 0, opnd := 0xff } : Fields).wellFormed = true := by decide
theorem test_wf_instr : (Instr.encByte 0xff).wellFormed = true := by decide
theorem test_asm_range : asmByteValue (.num 256) = .error .outOfRange ∧ asmRegValue (.num 256) = .error .outOfRange ∧
    asmByteValue (.char 'é') = .error .notAscii := by decide

/-! ### Decoding: words written out from R81 and R82 (OP, RSV, OPND) -/

theorem test_decode_nop : decode 0b0000000000000000 = .ok .nop := by decide
theorem test_decode_encInit : decode 0b0001000000000000 = .ok .encInit := by decide
theorem test_decode_encByte : decode 0b0010000001110111 = .ok (.encByte 0x77) := by decide
theorem test_decode_encFinish : decode 0b0011000000000000 = .ok .encFinish := by decide
theorem test_decode_decInit : decode 0b0100000000000000 = .ok .decInit := by decide
theorem test_decode_decFeed : decode 0b0101000011110001 = .ok (.decFeed 0xF1) := by decide
theorem test_decode_decFinish : decode 0b0110000000000000 = .ok .decFinish := by decide
theorem test_decode_regRead : decode 0b0111000011111111 = .ok (.regRead 0xff) := by decide
/-- Section 2.7: the refused words, each with the reason the decoder names. -/
theorem test_decode_illegal :
    decode 0x0100 = .error .reservedBits ∧ decode 0x5fff = .error .reservedBits ∧ decode 0x8000 = .error .reservedOpcode ∧
    decode 0xf0ff = .error .reservedOpcode ∧ decode 0x0001 = .error .operandNotZero ∧
    decode 0x4080 = .error .operandNotZero := by decide
theorem test_table_word : decodeTableWord 16 0x2077 = some (.encByte 0x77) ∧ decodeTableWord 16 0x8000 = none := by
  decide
theorem test_fetch_word : (nextOf (step (State.reset.withFetchWord 16 0x7000))).map State.responses =
    some [{ code := .ok, data := 0x48554601, encOut := [], decOut := [] }] := by decide +kernel

/-! ### One step of each command -/

theorem test_nop : result (exec .nop (st 5 3 1 1 false)) = gives .ok 0 [] [] (st 5 3 1 1 false) := by decide +kernel
/-- ES12. -/
theorem test_encInit : result (exec .encInit (st 5 0x1c 3 0 false)) = gives .ok 0 [] [] (st 0 0 3 0 false) := by
  decide +kernel
/-- ES4: the longest case, 37 bits and 4 bytes. -/
theorem test_encByte_longest : result (exec (.encByte 0x0a) (st 7 0x5c 0 0 false)) =
    gives .ok 0 [0xb9, 0xff, 0xff, 0xff] [] (st 5 0x1c 0 0 false) := by decide +kernel
/-- R102's example, the second ENC_BYTE 'w'. -/
theorem test_encByte_w : result (exec (.encByte 0x77) (st 7 0x78 0 0 false)) =
    gives .ok 0 [0xf1] [] (st 6 0x38 0 0 false) := by decide +kernel
/-- ES10: 7 padding bits. -/
theorem test_encFinish_pad : result (exec .encFinish (st 1 1 0 0 false)) = gives .ok 0 [0xff] [] (st 0 0 0 0 false) := by
  decide +kernel
/-- ES11: nothing to pad. -/
theorem test_encFinish_empty : result (exec .encFinish (st 0 0 0 0 false)) = gives .ok 0 [] [] (st 0 0 0 0 false) := by
  decide +kernel
/-- R120's example: DEC_INIT clears the sticky flag. -/
theorem test_decInit : result (exec .decInit (st 2 1 0 0 true)) = gives .ok 0 [] [] (st 2 1 0 0 false) := by
  decide +kernel
/-- R124: two symbols in one byte. -/
theorem test_decFeed_two : result (exec (.decFeed 0x01) (st 0 0 3 0 false)) =
    gives .ok 0 [] [0x30, 0x30] (st 0 0 1 1 false) := by decide +kernel
/-- DV20, the fourth byte: EOS completed as content. -/
theorem test_decFeed_malformed : result (exec (.decFeed 0xff) (st 5 0 24 0xffffff false)) =
    gives .malformed 0 [] [] (st 5 0 0 0 true) := by decide +kernel
/-- R130, C1: 7 ones are padding. -/
theorem test_decFinish_pad : result (exec .decFinish (st 0 0 7 0x7f false)) = gives .ok 0 [] [] (st 0 0 0 0 false) := by
  decide +kernel
/-- DV4: 8 ones are not. -/
theorem test_decFinish_truncated : result (exec .decFinish (st 0 0 8 0xff false)) =
    gives .truncated 0 [] [] (st 0 0 0 0 false) := by decide +kernel
/-- Section 2.7: ENC_STATUS at ENC(7, 0x5c). -/
theorem test_regRead_enc : result (exec (.regRead 1) (st 7 0x5c 0 0 false)) =
    gives .ok 0x00005c07 [] [] (st 7 0x5c 0 0 false) := by decide +kernel
/-- Section 2.5: DEC_STATUS after a MALFORMED, and after 07. -/
theorem test_regRead_dec :
    result (exec (.regRead 2) (st 0 0 0 0 true)) = gives .ok 0x00000200 [] [] (st 0 0 0 0 true) ∧
    result (exec (.regRead 2) (st 0 0 3 7 false)) = gives .ok 0x00000103 [] [] (st 0 0 3 7 false) := by decide +kernel
/-- Section 2.7: INVALID wins over the sticky MALFORMED. -/
theorem test_illegal_priority : result (step (issued 0x5fff (st 0 0 0 0 true))) =
    gives .invalid 0 [] [] (st 0 0 0 0 true) := by decide +kernel
/-- Section 2.8: reset in the middle of both strings, with no response. -/
theorem test_reset_step : nextOf (step { st 5 0 8 0xff false with port := [.reset] }) = some State.reset := by
  decide +kernel
/-- Section 2.6: the rows of node 15, nibbles 7 and F, of the root, nibble 0, and of node 255, nibble 8. -/
theorem test_darom : daRom 15 0x7 = 0x6300e ∧ (daEntry 15 0xf).emit = true ∧ (daEntry 0 0).emit = false ∧
    (daEntry 255 0x8).fail = true := by decide +kernel
/-- R89's examples, and a label, a comment and a pseudo-instruction. -/
theorem test_asm_lines :
    assembleLine "ENC_BYTE 'w'".toList = .ok [0x2077] ∧ assembleLine "DEC_FEED 0xF1".toList = .ok [0x50F1] ∧
    assembleLine "REG_READ DEC_STATUS ; flags".toList = .ok [0x7002] ∧ assembleLine "top: NOP".toList = .ok [0x0000] ∧
    assembleLine "ENCODE \"0\\x0a\"".toList = .ok [0x1000, 0x2030, 0x200a, 0x3000] := by decide +kernel

/-- Log entry 12, the model's own choices: where blanks are required, and leading zeros. -/
theorem test_asm_choices :
    assembleLine "ENC_BYTE'w'".toList = .ok [0x2077] ∧ assembleLine "top:NOP".toList = .ok [0x0000] ∧
    assembleLine "ENC_BYTE5".toList = .error .badCommand ∧ assembleLine "DEC_FEED 007".toList = .ok [0x5007] := by
  decide +kernel

/-! ### Witnesses: every hypothesis of a statement is met by a concrete state, at the ends of its range -/

theorem witness_DecodeTable : (0x1#4 : BitVec 4) ≠ 0 ∧ 8 ≤ (0x8#4).toNat ∧ 8 ≤ (0xf#4).toNat ∧
    (0x6#4 ∈ [0x0#4, 0x1#4, 0x3#4, 0x4#4, 0x6#4] ∧ (0x01#8 : Byte) ≠ 0) := by decide
theorem witness_EncodeDecode : decode 0x70ff = .ok (.regRead 0xff) := by decide
theorem witness_StepRunsDecoded :
    ((issued 0x2077 State.reset).port = [.command 0x2077] ∧ decode 0x2077 = .ok (.encByte 0x77)) ∧
    decodeTableWord 16 0x6000 = some .decFinish := by decide
theorem witness_IdleHoldsState : State.reset.port = [] := rfl
theorem witness_InvalidEffect : (issued 0x8000 State.reset).port = [.command 0x8000] ∧ isLegal 0x8000 = false ∧
    4 ≤ (4#8 : Byte).toNat := by decide
theorem witness_InvalidWords :
    ((0x0100#16 : Command).extractLsb' 8 4 ≠ 0) ∧ 8 ≤ ((0x8000#16 : Command).extractLsb' 12 4).toNat ∧
    ((0x4080#16 : Command).extractLsb' 12 4 ∈ [0x0#4, 0x1#4, 0x3#4, 0x4#4, 0x6#4] ∧
      (0x4080#16 : Command).extractLsb' 0 8 ≠ 0) ∧
    ((0x7004#16 : Command).extractLsb' 12 4 = 0x7 ∧ 4 ≤ ((0x7004#16 : Command).extractLsb' 0 8).toNat) := by decide

/-- A state with pending bits on both engines meets the invariant. -/
theorem witness_Inv : (st 7 0x5c 29 0x1fffffff false).Inv := by
  constructor <;> decide +kernel
theorem witness_Inv_error : (st 0 0 0 0 true).Inv := by
  constructor <;> decide +kernel
theorem witness_Inv_reset_input : ({ st 7 0x5c 1 1 false with port := [.reset] } : State).Inv ∧
    ∀ (w : Command) (rest : List HostInput), ({ st 7 0x5c 1 1 false with port := [.reset] } : State).port ≠ .command w :: rest :=
  ⟨by constructor <;> decide +kernel, by intro w rest h; injection h with h; cases h⟩
theorem witness_StepCompletes : (issued 0x50ff (st 7 0x5c 29 0x1fffffff false)).Inv ∧
    ∃ w rest, (issued 0x50ff (st 7 0x5c 29 0x1fffffff false)).port = .command w :: rest :=
  ⟨by constructor <;> decide +kernel, _, _, rfl⟩
theorem witness_CodePriority : (issued 0x6000 (st 0 0 0 0 true)).Inv ∧
    (issued 0x6000 (st 0 0 0 0 true)).port = [.command 0x6000] :=
  ⟨by constructor <;> decide +kernel, rfl⟩
theorem witness_ResetEffect : ({ st 5 0 8 0xff false with port := [.reset, .reset] } : State).port = [.reset, .reset] := rfl
theorem witness_ResetEquivalents : (st 0 0 0 0 false).enc = State.reset.enc ∧ (st 0 0 0 0 false).dec = State.reset.dec ∧
    (∃ t u, exec .encInit (st 7 1 3 7 true) = .next t ∧ exec .decInit t = .next u) ∧
    (∃ t u, exec .encFinish (st 7 1 3 7 true) = .next t ∧ exec .decFinish t = .next u) :=
  ⟨rfl, rfl, ⟨_, _, rfl, rfl⟩, ⟨_, _, rfl, rfl⟩⟩
theorem witness_StepKeepsInvariant : (issued 0x2077 (st 7 0x5c 1 1 false)).Inv ∧
    ∃ t, step (issued 0x2077 (st 7 0x5c 1 1 false)) = .next t :=
  ⟨by constructor <;> decide +kernel, _, rfl⟩
theorem witness_NopResult : (issued 0x0001 State.reset).port = [.command 0x0001] ∧
    (0x0001#16 : Command).extractLsb' 12 4 = 0x0 ∧ (0x0001#16 : Command) ≠ 0x0000 := by decide
theorem witness_RegReadResult : 4 ≤ (4#8 : Byte).toNat ∧ 4 ≤ (255#8 : Byte).toNat := by decide
theorem witness_ReservedBitsZero :
    (∃ v, exec (.regRead 1) (st 7 0x5c 3 7 false) = .next (answered .ok v [] [] (st 7 0x5c 3 7 false))) ∧
    (∃ v, exec (.regRead 2) (st 7 0x5c 3 7 false) = .next (answered .ok v [] [] (st 7 0x5c 3 7 false))) ∧
    (∃ v, exec (.regRead 3) (st 7 0x5c 3 7 false) = .next (answered .ok v [] [] (st 7 0x5c 3 7 false))) ∧
    (st 7 0x5c 3 7 false).Inv :=
  ⟨⟨_, rfl⟩, ⟨_, rfl⟩, ⟨_, rfl⟩, by constructor <;> decide +kernel⟩
theorem witness_ReadsArePure : (Instr.nop = .nop ∨ ∃ j, Instr.nop = .regRead j) ∧
    (Instr.regRead 4 = .nop ∨ ∃ j, Instr.regRead 4 = .regRead j) := ⟨Or.inl rfl, Or.inr ⟨4, rfl⟩⟩
theorem witness_EncInitResult : (∃ t, exec .encInit (st 7 0x78 0 0 false) = .next t) ∧
    (issued 0x1001 State.reset).port = [.command 0x1001] ∧ (0x1001#16 : Command).extractLsb' 12 4 = 0x1 ∧
    (0x1001#16 : Command) ≠ 0x1000 := ⟨⟨_, rfl⟩, rfl, by decide, by decide⟩
theorem witness_EncByteResult : (0x3ffffffc : Nat) = (ct (0x0a#8).toNat).code.toNat ∧ 30 = (ct (0x0a#8).toNat).len.toNat ∧
    0x5c * 2 ^ 30 + 0x3ffffffc = (st 7 0x5c 0 0 false).enc.v.toNat * 2 ^ 30 + 0x3ffffffc ∧
    37 = (st 7 0x5c 0 0 false).enc.n.toNat + 30 ∧ encOk (st 7 0x5c 0 0 false).enc = true := by decide +kernel
theorem witness_EncOutputBound : (st 7 0x5c 0 0 false).enc.n.toNat = 7 ∧ (22#8 : Byte) ∈ [10#8, 13#8, 22#8] := by decide
theorem witness_EncFinishResult : (st 0 0 0 0 false).enc.n.toNat = 0 ∧ (st 1 1 0 0 false).enc.n.toNat ≠ 0 ∧
    (st 7 0x78 0 0 false).enc.n.toNat ≠ 0 ∧ (∃ t, exec .encFinish (st 1 1 0 0 false) = .next t) :=
  ⟨by decide, by decide, by decide, _, rfl⟩
/-- With a DEC_FEED between the encoder's commands, an old pending bit, and one more word behind. -/
theorem witness_EncodeSequenceLaw :
    decOk (st 7 0x5c 1 1 false).dec = true ∧
    [Instr.encInit, .decFeed 0xf1, .encByte 0x77, .nop, .encFinish].filter isEncoder = encodeCall [0x77] ∧
    ({ st 7 0x5c 1 1 false with
        port := inputsOf [.encInit, .decFeed 0xf1, .encByte 0x77, .nop, .encFinish] ++ [.reset] } : State).port =
      inputsOf [.encInit, .decFeed 0xf1, .encByte 0x77, .nop, .encFinish] ++ [.reset] :=
  ⟨by decide +kernel, by decide, rfl⟩
theorem witness_EncodedLength : (([0x30, 0x30] : List Byte).map fun b => (ct b.toNat).len.toNat).sum ≤ 8 * 2 := by
  decide +kernel
theorem witness_DecInitResult : (∃ t, exec .decInit (st 0 0 0 0 true) = .next t) ∧
    (issued 0x4080 State.reset).port = [.command 0x4080] ∧ (0x4080#16 : Command).extractLsb' 12 4 = 0x4 ∧
    (0x4080#16 : Command) ≠ 0x4000 := ⟨⟨_, rfl⟩, rfl, by decide, by decide⟩
theorem witness_DecFeedResult_sticky : (st 0 0 0 0 true).dec.err = true := rfl
theorem witness_DecFeedResult_fails : (st 0 0 29 0x1fffffff false).dec.err = false ∧
    (st 0 0 29 0x1fffffff false).dec.pl.toNat ≤ 29 ∧ feedLoop 0x80 (st 0 0 29 0x1fffffff false).dec = none := by
  decide +kernel
theorem witness_DecFeedResult_completes : (st 0 0 3 0 false).dec.err = false ∧ (st 0 0 3 0 false).dec.pl.toNat ≤ 29 ∧
    feedLoop 0x01 (st 0 0 3 0 false).dec = some ([0x30, 0x30], { len := 1, val := 1 }) := by decide +kernel
theorem witness_DecFeedCompletes :
    ((st 0 0 22 0x3fffff false).Inv ∧ completesEos 0xfe (st 0 0 22 0x3fffff false).dec = false) ∧
    ((st 0 0 22 0x3fffff false).Inv ∧ completesEos 0xff (st 0 0 22 0x3fffff false).dec = true) ∧
    ((st 0 0 29 0x1fffffff false).Inv ∧ completesEos 0x80 (st 0 0 29 0x1fffffff false).dec = true) :=
  ⟨⟨by constructor <;> decide +kernel, by decide⟩, ⟨by constructor <;> decide +kernel, by decide⟩,
    ⟨by constructor <;> decide +kernel, by decide⟩⟩
theorem witness_DecOutputBound : (∃ t, exec (.decFeed 0xff) (st 0 0 24 0xffffff false) = .next t) ∧
    (st 0 0 3 0 false).dec = { pl := 3, pv := 0, err := false } :=
  ⟨exists_next (by decide +kernel), rfl⟩
/-- The fourth byte of DV20: it fails at its sixth bit, and the five bits before it complete nothing. -/
theorem witness_FailingFeedDropsNothing :
    (st 0 0 24 0xffffff false).dec.err = false ∧
    (∃ t, exec (.decFeed 0xff) (st 0 0 24 0xffffff false) = .next t ∧ t.dec.err = true) ∧
    walk ((byteBits 0xff).take 5) (st 0 0 24 0xffffff false).dec.bits [] = some ([], { len := 29, val := 0x1fffffff }) := by
  refine ⟨rfl, ?_, by decide +kernel⟩
  obtain ⟨t, ht⟩ := exists_next (o := exec (.decFeed 0xff) (st 0 0 24 0xffffff false)) (by decide +kernel)
  refine ⟨t, ht, ?_⟩
  have h : ((nextOf (exec (.decFeed 0xff) (st 0 0 24 0xffffff false))).map fun t => t.dec.err) = some true := by
    decide +kernel
  rw [ht] at h
  simpa [nextOf] using h
theorem witness_FailingFeedDropsNothing_node : decOk (st 0 0 24 0xffffff false).dec = true := by decide +kernel
theorem witness_StuckExactly : exec (.decFeed 0) (st 0 0 30 0 false) = .fault .stuckPrefix := rfl
theorem witness_DecFinishResult : ∃ t, exec .decFinish (st 0 0 3 7 true) = .next t := ⟨_, rfl⟩
theorem witness_StickyFlag_set : (issued 0x50ff (st 0 0 24 0xffffff false)).dec.err = false ∧
    (nextOf (step (issued 0x50ff (st 0 0 24 0xffffff false)))).map (fun t => t.dec.err) = some true := by decide +kernel
theorem witness_StickyFlag_clear : (issued 0x4000 (st 0 0 0 0 true)).dec.err = true ∧
    (nextOf (step (issued 0x4000 (st 0 0 0 0 true)))).map (fun t => t.dec.err) = some false ∧
    (nextOf (step (issued 0x6000 (st 0 0 0 0 true)))).map (fun t => t.dec.err) = some false ∧
    (nextOf (step { st 0 0 0 0 true with port := [.reset] })).map (fun t => t.dec.err) = some false := by decide +kernel
/-- With an ENC_BYTE between the decoder's commands; DV2, DV3 and DV22 give the three results. -/
theorem witness_DecodeSequenceLaw :
    [Instr.decInit, .encByte 0x77, .decFeed 0x07, .decFinish].filter isDecoder = decodeCall [0x07] ∧
    ({ State.reset with port := inputsOf [.decInit, .encByte 0x77, .decFeed 0x07, .decFinish] ++ [] } : State).port =
      inputsOf [.decInit, .encByte 0x77, .decFeed 0x07, .decFinish] ++ [] ∧
    huffDecode [0x07] = .ok [0x30] ∧ huffDecode [0x00] = .truncated ∧ huffDecode [0xff, 0xff, 0xff, 0xff, 0x00] = .malformed :=
  ⟨by decide, rfl, by decide +kernel, by decide +kernel, by decide +kernel⟩
theorem witness_HostAcceptsExactly :
    (decodeCall [0x07]).filter isDecoder = decodeCall [0x07] ∧
    ∃ t rs, Host.Core.run core (decodeCall [0x07]).length
        ({ State.reset with port := inputsOf (decodeCall [0x07]) ++ [] } : State) = .next t ∧
      t.responses = State.reset.responses ++ rs := by
  refine ⟨by decide, ?_⟩
  obtain ⟨t, ht⟩ := exists_next (o := Host.Core.run core (decodeCall [0x07]).length
    ({ State.reset with port := inputsOf (decodeCall [0x07]) ++ [] } : State)) (by decide +kernel)
  exact ⟨t, t.responses, ht, rfl⟩
theorem witness_CommandFrame : (∃ t, exec (.encByte 0x0a) (st 7 0x5c 3 7 false) = .next t) ∧
    (∃ t, exec .decFinish (st 7 0x5c 3 7 false) = .next t) ∧ (∃ t, exec (.regRead 4) (st 7 0x5c 3 7 false) = .next t) :=
  ⟨⟨_, rfl⟩, ⟨_, rfl⟩, ⟨_, rfl⟩⟩
theorem witness_EnginesIndependent :
    (isEncoder (.encByte 0x77) = true ∧ (st 5 3 1 1 false).enc = (st 5 3 0 0 true).enc) ∧
    (isDecoder (.decFeed 0xff) = true ∧ (st 5 3 29 0x1fffffff false).dec = (st 0 0 29 0x1fffffff false).dec ∧
      (st 5 3 29 0x1fffffff false).dec.pl.toNat ≤ 29) := by decide
theorem witness_ResponseFields : ∃ t r, exec .encFinish (st 7 0x78 0 0 false) = .next t ∧
    t.responses = (st 7 0x78 0 0 false).responses ++ [r] ∧ r.encOut ≠ [] :=
  ⟨_, _, rfl, rfl, by decide⟩
theorem witness_NoOtherError :
    (∃ t r, exec (.decFeed 0) (st 0 0 0 0 true) = .next t ∧ t.responses = [] ++ [r] ∧ r.code = .malformed) ∧
    (∃ t r, exec .decFinish (st 0 0 8 0xff false) = .next t ∧ t.responses = [] ++ [r] ∧ r.code = .truncated) ∧
    (∃ t r, exec (.regRead 4) (st 0 0 0 0 false) = .next t ∧ t.responses = [] ++ [r] ∧ r.code = .invalid) :=
  ⟨⟨_, _, rfl, rfl, rfl⟩, ⟨_, _, rfl, rfl, by decide +kernel⟩, ⟨_, _, rfl, rfl, rfl⟩⟩
theorem witness_CodeTableRanges : (1 : Nat) ≤ 7 ∧ (ct 256).len.toNat = 30 ∧ (ct 48).len.toNat ≤ 7 := by decide +kernel
theorem witness_CodePrefixFree : (48 : Nat) ≤ 256 ∧ (256 : Nat) ≤ 256 ∧ (48 : Nat) ≠ 256 ∧
    (codeword 48).len ≤ (codeword 256).len := by decide +kernel
theorem witness_NodeNumbering : isNode { len := 29, val := 0x1fffffff } = true ∧ isNode { len := 30, val := 0 } = false ∧
    BitStr.empty ∈ nodeList := ⟨by decide +kernel, by decide +kernel, List.mem_cons_self⟩
theorem witness_NoDeadEnd : isNode { len := 29, val := 0x1fffffff } = true ∧
    (findSymbol (BitStr.push { len := 29, val := 0x1fffffff } true)).isSome = true := by decide +kernel
theorem witness_DaromLayout : (daEntry 15 0xf).emit = true ∧ (daEntry 0 0).emit = false ∧
    (daEntry 255 0x8).fail = true := test_darom.2
theorem witness_DaromProperties : walk (nibbleBits 0x7) { len := 4, val := 0 } [] = some ([0x30], { len := 3, val := 7 }) := by
  decide +kernel
theorem witness_AssembledWords : (255 : Nat) < 256 ∧ 256 ≤ (256 : Nat) := by decide
theorem witness_PseudoExpansions : ∀ n ∈ [0xf1, 0xe3, 255], n < 256 := by decide

end Sys2Proof.Tests
end

namespace Sys2Proof.Machine

/-- R84: the step takes a word that decodes off the port and runs its command. -/
theorem step_of_decode {s : State} {w : Command} {rest : List HostInput} {i : Instr}
    (hp : s.port = .command w :: rest) (hd : decode w = .ok i) : step s = exec i { s with port := rest } := by
  simp only [step, takeInput_cons hp, hd]

theorem decodeTableWord_eq_some {n w : Nat} {i : Instr} :
    decodeTableWord n w = some i ↔ decode (tableWord n w) = .ok i := by
  cases h : decode (tableWord n w) <;> simp [decodeTableWord, Except.toOption, h]

@[simp] theorem withFetchWord_port (s : State) (n w : Nat) :
    (s.withFetchWord n w).port = .command (tableWord n w) :: s.port := rfl

/-- Taking the placed word off the port gives the state back. -/
theorem withFetchWord_restore (s : State) (n w : Nat) :
    { s.withFetchWord n w with port := s.port } = s := rfl

/-- Settles O6: both clauses are the decoded step, the second on the port that `withFetchWord` builds. -/
theorem stepRunsDecoded : Obligations.StepRunsDecoded := by
  refine ⟨fun s w rest i hp hd => step_of_decode hp hd, fun s w i h => ?_⟩
  have hd : decode (tableWord 16 w) = .ok i := decodeTableWord_eq_some.mp h
  rw [step_of_decode (withFetchWord_port s 16 w) hd, withFetchWord_restore]

end Sys2Proof.Machine

namespace Sys2Proof.Machine

/-! ### What a command can do, said once -/

/-- What each command does when it answers: one constructor per meaning, three for DEC_FEED (R124, R125) and two for REG_READ
(R151, R85). -/
inductive Answers (s : State) : Instr → State → Prop where
  | nop : Answers s .nop (reply .ok 0 s)
  | encInit : Answers s .encInit (reply .ok 0 (clearEnc s))
  | encByte (b : Byte) :
      Answers s (.encByte b) (replyEnc (appendByte b s.enc).fullBytes (setEnc (appendByte b s.enc).leftover s))
  | encFinish : Answers s .encFinish (replyEnc (padByte s.enc) (clearEnc s))
  | decInit : Answers s .decInit (reply .ok 0 (clearDec s))
  | decSticky (b : Byte) (herr : s.dec.err = true) : Answers s (.decFeed b) (raise .malformed s)
  | decFails (b : Byte) (herr : s.dec.err = false) (hpl : s.dec.pl.toNat < 30)
      (hwalk : walk (byteBits b) s.dec.bits [] = none) : Answers s (.decFeed b) (malformed s)
  | decFed (b : Byte) (out : List Byte) (cur : BitStr) (herr : s.dec.err = false) (hpl : s.dec.pl.toNat < 30)
      (hwalk : walk (byteBits b) s.dec.bits [] = some (out, cur)) :
      Answers s (.decFeed b) (replyDec out (setDecBits cur s))
  | decFinish : Answers s .decFinish (reply (finishCode s.dec) 0 (clearDec s))
  | regRead (i : Byte) (v : Word32) (hread : readRegister (registerIndex i) s = some v) :
      Answers s (.regRead i) (reply .ok v s)
  | regReserved (i : Byte) (hread : readRegister (registerIndex i) s = none) :
      Answers s (.regRead i) (raise .invalid s)

theorem exec_nop (s : State) : exec .nop s = .next (reply .ok 0 s) := rfl
theorem exec_encInit (s : State) : exec .encInit s = .next (reply .ok 0 (clearEnc s)) := rfl
theorem exec_encByte (b : Byte) (s : State) :
    exec (.encByte b) s =
      .next (replyEnc (appendByte b s.enc).fullBytes (setEnc (appendByte b s.enc).leftover s)) := rfl
theorem exec_encFinish (s : State) : exec .encFinish s = .next (replyEnc (padByte s.enc) (clearEnc s)) := rfl
theorem exec_decInit (s : State) : exec .decInit s = .next (reply .ok 0 (clearDec s)) := rfl
theorem exec_decFinish (s : State) : exec .decFinish s = .next (reply (finishCode s.dec) 0 (clearDec s)) := rfl

/-- This machine's DEC_FEED is the bit-serial form (R10, R124). -/
theorem exec_decFeed (b : Byte) (s : State) : exec (.decFeed b) s = decFeedWith .bit b s := rfl

theorem exec_regRead_of_some {i : Byte} {s : State} {v : Word32} (h : readRegister (registerIndex i) s = some v) :
    exec (.regRead i) s = .next (reply .ok v s) := by
  simp only [exec, execRegRead, h]

theorem exec_regRead_of_none {i : Byte} {s : State} (h : readRegister (registerIndex i) s = none) :
    exec (.regRead i) s = .next (raise .invalid s) := by
  simp only [exec, execRegRead, h]

/-- The inversion lemma of `exec`: a command that gives a next state did one of the things that `Answers` lists. -/
theorem answers_of_exec {i : Instr} {s t : State} (h : exec i s = .next t) : Answers s i t := by
  cases i with
  | nop => cases h; exact .nop
  | encInit => cases h; exact .encInit
  | encByte b => cases h; exact .encByte b
  | encFinish => cases h; exact .encFinish
  | decInit => cases h; exact .decInit
  | decFeed b =>
    rcases decFeedWith_next h with ⟨herr, rfl⟩ | ⟨herr, hpl, hwalk, rfl⟩ |
      ⟨herr, hpl, out, cur, hwalk, rfl⟩
    · exact .decSticky b herr
    · exact .decFails b herr hpl hwalk
    · exact .decFed b out cur herr hpl hwalk
  | decFinish => cases h; exact .decFinish
  | regRead i =>
    cases hread : readRegister (registerIndex i) s with
    | some v => rw [exec_regRead_of_some hread] at h; cases h; exact .regRead i v hread
    | none => rw [exec_regRead_of_none hread] at h; cases h; exact .regReserved i hread

/-! ### The invariant of the engine registers -/

/-- The invariant speaks of the engine registers alone. -/
theorem State.Inv.of_engines {s t : State} (h : s.Inv) (henc : t.enc = s.enc) (hdec : t.dec = s.dec) : t.Inv := by
  rw [State.Inv, henc, hdec]
  exact h

/-- The encoder's reset state is in range (R27). -/
theorem encOk_clear : encOk { n := 0, v := 0 } = true := by decide

/-- The decoder with no pending bits stands at the root, with or without an error (R28, R125). -/
theorem decOk_clear (err : Bool) : decOk { pl := 0, pv := 0, err := err } = true := by
  have hbits : Dec.bits { pl := 0, pv := 0, err := err } = BitStr.empty := rfl
  rw [decOk, hbits, isNode_root]
  simp

/-- Fewer than 8 bits in range fill the encoder's registers within R27. -/
theorem encOk_encOf {q : BitStr} (hlen : q.len < 8) (hval : q.val < 2 ^ q.len) : encOk (encOf q) = true := by
  have h7 : q.val < 2 ^ 7 := lt_of_lt_of_le hval (Nat.pow_le_pow_right (by decide) (by omega))
  rw [encOk, encOf_bits hlen h7, BitStr.inRange_iff]
  exact hval

/-- A node fills the decoder's registers within R28. -/
theorem decOk_decOf {q : BitStr} (h : isNode q = true) : decOk (decOf q false) = true := by
  rw [decOk, decOf_bits false h, h]
  rfl

/-- Every command keeps the invariant: ENC_BYTE keeps at most 7 bits in range, and a consumed byte ends at a node. -/
theorem Answers.inv {i : Instr} {s t : State} (h : Answers s i t) (hs : s.Inv) : t.Inv := by
  obtain ⟨henc, hdec⟩ := hs
  cases h with
  | nop | decSticky | regRead | regReserved => exact ⟨henc, hdec⟩
  | encInit | encFinish => exact ⟨encOk_clear, hdec⟩
  | encByte b => exact ⟨encOk_encOf (Nat.mod_lt _ (by decide)) (BitStr.inRange_leftover _), hdec⟩
  | decInit | decFinish => exact ⟨henc, decOk_clear false⟩
  | decFails => exact ⟨henc, decOk_clear true⟩
  | decFed b out cur herr hpl hwalk =>
    refine ⟨henc, ?_⟩
    rw [replyDec_dec, setDecBits_dec, herr]
    exact decOk_decOf (walk_byte_node hwalk)

/-- Settles O15, by the cases of a step; a command's case is `Answers.inv`. -/
theorem stepKeepsInvariant : Obligations.StepKeepsInvariant := by
  intro s t hs h
  rcases step_cases h with ⟨-, rfl⟩ | ⟨rest, -, rfl⟩ | ⟨w, rest, i, -, -, hexec⟩ | ⟨w, rest, e, -, -, rfl⟩
  · exact hs
  · exact ⟨encOk_clear, decOk_clear false⟩
  · exact (answers_of_exec hexec).inv (hs.of_engines rfl rfl)
  · exact hs.of_engines rfl rfl

/-- Settles O14: both engines stand at their clear states. -/
theorem resetMeetsInvariant : Obligations.ResetMeetsInvariant := ⟨encOk_clear, decOk_clear false⟩

/-! ### What a command leaves alone, and the one stop -/

/-- Settles O41, by the cases of `Answers`: no meaning writes the other engine's registers or the port. -/
theorem commandFrame : Obligations.CommandFrame := by
  intro i s t h
  cases answers_of_exec h with
  | nop | regRead | regReserved => exact ⟨fun _ => rfl, fun _ => rfl, rfl, _, rfl⟩
  | encInit | encByte | encFinish => exact ⟨nofun, fun _ => rfl, rfl, _, rfl⟩
  | decInit | decSticky | decFails | decFed | decFinish => exact ⟨fun _ => rfl, nofun, rfl, _, rfl⟩

/-- DEC_FEED either answers or meets X16's state, and stops nowhere else. -/
theorem decFeed_next_or_stuck (b : Byte) (s : State) :
    ((∃ t, exec (.decFeed b) s = .next t) ∧ ¬ (s.dec.err = false ∧ 30 ≤ s.dec.pl.toNat)) ∨
    (exec (.decFeed b) s = .fault .stuckPrefix ∧ s.dec.err = false ∧ 30 ≤ s.dec.pl.toNat) := by
  rw [exec_decFeed, decFeedWith]
  by_cases herr : s.dec.err = true
  · rw [if_pos herr]
    exact Or.inl ⟨⟨_, rfl⟩, by simp [herr]⟩
  · rw [if_neg herr]
    by_cases hpl : Config.lmax ≤ s.dec.pl.toNat
    · rw [if_pos hpl]
      exact Or.inr ⟨rfl, by simpa using herr, hpl⟩
    · rw [if_neg hpl]
      refine Or.inl ⟨?_, fun h => hpl h.2⟩
      cases consumeByte .bit b s.dec.bits with
      | none => exact ⟨_, rfl⟩
      | some r => exact ⟨_, rfl⟩

/-- Every command but DEC_FEED answers in every state. -/
theorem exec_next_of_not_decFeed {i : Instr} (s : State) (h : ∀ b, i ≠ .decFeed b) : ∃ t, exec i s = .next t := by
  cases i with
  | nop => exact ⟨_, exec_nop s⟩
  | encInit => exact ⟨_, exec_encInit s⟩
  | encByte b => exact ⟨_, exec_encByte b s⟩
  | encFinish => exact ⟨_, exec_encFinish s⟩
  | decInit => exact ⟨_, exec_decInit s⟩
  | decFeed b => exact absurd rfl (h b)
  | decFinish => exact ⟨_, exec_decFinish s⟩
  | regRead i =>
    cases hread : readRegister (registerIndex i) s with
    | some v => exact ⟨_, exec_regRead_of_some hread⟩
    | none => exact ⟨_, exec_regRead_of_none hread⟩

/-- A command answers, or it is a DEC_FEED in X16's state. -/
theorem exec_next_or_stuck (i : Instr) (s : State) :
    (∃ t, exec i s = .next t) ∨ (∃ b, i = .decFeed b) ∧ exec i s = .fault .stuckPrefix := by
  by_cases hi : ∃ b, i = .decFeed b
  · obtain ⟨b, rfl⟩ := hi
    rcases decFeed_next_or_stuck b s with ⟨hnext, -⟩ | ⟨hstuck, -⟩
    · exact Or.inl hnext
    · exact Or.inr ⟨⟨b, rfl⟩, hstuck⟩
  · exact Or.inl (exec_next_of_not_decFeed s fun b hb => hi ⟨b, hb⟩)

/-- Settles O33: the branches of DEC_FEED for the first clause, `exec_next_or_stuck` for the other two. -/
theorem stuckExactly : Obligations.StuckExactly := by
  refine ⟨fun b s => ?_, fun i s f h => ?_, fun i s r h => ?_⟩
  · rcases decFeed_next_or_stuck b s with ⟨⟨t, ht⟩, hnot⟩ | ⟨hstuck, hyes⟩
    · rw [ht]
      exact ⟨nofun, fun hyes => absurd hyes hnot⟩
    · exact ⟨fun _ => hyes, fun _ => hstuck⟩
  · rcases exec_next_or_stuck i s with ⟨t, ht⟩ | ⟨hi, -⟩
    · rw [ht] at h
      cases h
    · exact hi
  · rcases exec_next_or_stuck i s with ⟨t, ht⟩ | ⟨-, ht⟩ <;> rw [ht] at h <;> cases h

/-! ### The sticky flag -/

/-- The three fields of a word, joined again, are the word (R81). -/
theorem joinFields_splitFields (w : Command) : joinFields (splitFields w) = w := by
  simp only [joinFields, splitFields]
  rw [BitVec.extractLsb'_append_extractLsb'_eq_extractLsb' (by rfl),
    BitVec.extractLsb'_append_extractLsb'_eq_extractLsb' (by rfl)]
  simp

/-- A command without operand decodes only with OPND 0. -/
theorem noOperand_eq_ok {opnd : Byte} {i j : Instr} : noOperand opnd j = .ok i ↔ opnd = 0 ∧ j = i := by
  rw [noOperand]
  split <;> simp_all

/-- The fields of a word that decodes are the fields of its command (R82, R84). -/
theorem fieldsOf_of_decode {w : Command} {i : Instr} (h : decode w = .ok i) : fieldsOf i = splitFields w := by
  rw [decode] at h
  generalize splitFields w = f at h ⊢
  obtain ⟨op, rsv, opnd⟩ := f
  split at h
  · cases h
  · rename_i hrsv
    obtain rfl : rsv = 0 := by simpa using hrsv
    dsimp only at h
    split at h
    · obtain ⟨rfl, rfl⟩ := noOperand_eq_ok.mp h; rfl
    · obtain ⟨rfl, rfl⟩ := noOperand_eq_ok.mp h; rfl
    · cases h; rfl
    · obtain ⟨rfl, rfl⟩ := noOperand_eq_ok.mp h; rfl
    · obtain ⟨rfl, rfl⟩ := noOperand_eq_ok.mp h; rfl
    · cases h; rfl
    · obtain ⟨rfl, rfl⟩ := noOperand_eq_ok.mp h; rfl
    · cases h; rfl
    · cases h

/-- A word that decodes is the word of its command (R81, R84). -/
theorem encode_of_decode {w : Command} {i : Instr} (h : decode w = .ok i) : encode i = w := by
  rw [encode, fieldsOf_of_decode h, joinFields_splitFields]

/-- Only a DEC_FEED that answers MALFORMED sets the sticky flag (R29). -/
theorem Answers.err_set {i : Instr} {s t : State} (h : Answers s i t) (hs : s.dec.err = false)
    (ht : t.dec.err = true) :
    ∃ b r, i = .decFeed b ∧ t.responses = s.responses ++ [r] ∧ r.code = .malformed := by
  have hkept : t.dec = s.dec → False := fun hd => by simp [hd, hs] at ht
  cases h with
  | nop | encInit | encByte | encFinish | decSticky | regRead | regReserved => exact (hkept rfl).elim
  | decInit | decFinish => cases ht
  | decFails b => exact ⟨b, _, rfl, malformed_responses s, rfl⟩
  | decFed b out cur herr => exact Bool.noConfusion (herr.symm.trans ht)

/-- Only DEC_INIT and DEC_FINISH, of all commands, clear the sticky flag (R29). -/
theorem Answers.err_cleared {i : Instr} {s t : State} (h : Answers s i t) (hs : s.dec.err = true)
    (ht : t.dec.err = false) : i = .decInit ∨ i = .decFinish := by
  have hkept : t.dec.err = s.dec.err → False := fun hd => by simp [hd, hs] at ht
  cases h with
  | nop | encInit | encByte | encFinish | decSticky | decFed | regRead | regReserved => exact (hkept rfl).elim
  | decInit => exact Or.inl rfl
  | decFinish => exact Or.inr rfl
  | decFails => cases ht

/-- While the flag is 1, DEC_FEED answers MALFORMED and consumes nothing (R29, R124). -/
theorem exec_decFeed_sticky (b : Byte) {s : State} (h : s.dec.err = true) :
    exec (.decFeed b) s = .next (raise .malformed s) := by
  rw [exec_decFeed, decFeedWith, if_pos h]

/-- While the flag is 1, DEC_FINISH reports MALFORMED (R29, R130). -/
theorem finishCode_sticky {d : Dec} (h : d.err = true) : finishCode d = .malformed := if_pos h

/-- Settles O35: `Answers.err_set` and `Answers.err_cleared` for the commands, carried to every step. -/
theorem stickyFlag : Obligations.StickyFlag := by
  refine ⟨fun s t h hs ht => ?_, fun s t h hs ht => ?_, fun b s herr => exec_decFeed_sticky b herr,
    fun s herr => ?_, rfl⟩
  · rcases step_cases h with ⟨-, rfl⟩ | ⟨rest, -, rfl⟩ | ⟨w, rest, i, hp, hd, hexec⟩ | ⟨w, rest, e, -, -, rfl⟩
    · exact Bool.noConfusion (hs.symm.trans ht)
    · cases ht
    · obtain ⟨b, r, rfl, hr, hcode⟩ := (answers_of_exec hexec).err_set hs ht
      exact ⟨w, rest, b, r, hp, hd, hr, hcode⟩
    · exact Bool.noConfusion (hs.symm.trans ht)
  · rcases step_cases h with ⟨-, rfl⟩ | ⟨rest, hp, -⟩ | ⟨w, rest, i, hp, hd, hexec⟩ | ⟨w, rest, e, -, -, rfl⟩
    · exact Bool.noConfusion (hs.symm.trans ht)
    · exact ⟨rest, Or.inl hp⟩
    · have hw := encode_of_decode hd
      rcases (answers_of_exec hexec).err_cleared hs ht with rfl | rfl
      · exact ⟨rest, Or.inr (Or.inl (hp.trans (by rw [← hw]; rfl)))⟩
      · exact ⟨rest, Or.inr (Or.inr (hp.trans (by rw [← hw]; rfl)))⟩
    · exact Bool.noConfusion (hs.symm.trans ht)
  · rw [exec_decFinish, finishCode_sticky herr]
    rfl

/-! ### The status registers -/

/-- A REG_READ answers OK with a value exactly when the register space holds that value at the index (R30, R151). -/
theorem exec_regRead_value {i : Byte} {s : State} {v : Word32} :
    exec (.regRead i) s = .next (answered .ok v [] [] s) ↔ readRegister (registerIndex i) s = some v := by
  constructor
  · intro h
    cases hread : readRegister (registerIndex i) s with
    | some u =>
      rw [exec_regRead_of_some hread, reply_eq_answered] at h
      simpa [answered] using h
    | none =>
      rw [exec_regRead_of_none hread, raise_eq_answered] at h
      simp [answered] at h
  · exact exec_regRead_of_some

/-- A field at bit `k` beside a narrower one: the two, joined by OR, add up. -/
theorem or_shiftLeft_toNat {lo hi : Word32} {k : Nat} (hlo : lo.toNat < 2 ^ k) (hhi : hi.toNat * 2 ^ k < 2 ^ 32) :
    (lo ||| hi <<< k).toNat = lo.toNat + 2 ^ k * hi.toNat := by
  rw [BitVec.toNat_or, BitVec.toNat_shiftLeft, Nat.shiftLeft_eq, Nat.mod_eq_of_lt hhi, ← Nat.shiftLeft_eq,
    Nat.or_comm, ← Nat.shiftLeft_add_eq_or_of_lt hlo, Nat.shiftLeft_eq]
  ring

/-- ENC_STATUS as a number (R32). -/
theorem regEncStatus_toNat (s : State) :
    (regEncStatus s).toNat = s.enc.n.toNat + 2 ^ 8 * s.enc.v.toNat := by
  have hn := s.enc.n.isLt
  have hv := s.enc.v.isLt
  have hn' : (s.enc.n.zeroExtend 32).toNat = s.enc.n.toNat := by simp; omega
  have hv' : (s.enc.v.zeroExtend 32).toNat = s.enc.v.toNat := by simp; omega
  rw [regEncStatus, or_shiftLeft_toNat (by omega) (by omega), hn', hv']

/-- DEC_STATUS as a number (R33). -/
theorem regDecStatus_toNat (s : State) :
    (regDecStatus s).toNat = s.dec.pl.toNat + 2 ^ 8 * (acceptFlag s.dec).toNat + 2 ^ 9 * s.dec.err.toNat := by
  have hpl := s.dec.pl.isLt
  have hpl' : (s.dec.pl.zeroExtend 32).toNat = s.dec.pl.toNat := by simp; omega
  have hbit (c : Bool) : ((BitVec.ofBool c).zeroExtend 32).toNat = c.toNat := by cases c <;> rfl
  have hlt (c : Bool) : c.toNat < 2 := Bool.toNat_lt c
  have hlow : (s.dec.pl.zeroExtend 32 ||| (BitVec.ofBool (acceptFlag s.dec)).zeroExtend 32 <<< 8).toNat =
      s.dec.pl.toNat + 2 ^ 8 * (acceptFlag s.dec).toNat := by
    rw [or_shiftLeft_toNat (by omega) (by have := hlt (acceptFlag s.dec); rw [hbit]; omega), hpl', hbit]
  have ha := hlt (acceptFlag s.dec)
  have he := hlt s.dec.err
  rw [regDecStatus, or_shiftLeft_toNat (by rw [hlow]; omega) (by rw [hbit]; omega), hlow, hbit]

/-- DEC_PREFIX as a number (R34). -/
theorem regDecPrefix_toNat (s : State) : (regDecPrefix s).toNat = s.dec.pv.toNat := by
  have := s.dec.pv.isLt
  simp [regDecPrefix]
  omega

/-- A field of a value is 0 when the bits of the number there are. -/
theorem extractLsb'_eq_zero {v : Word32} {start len : Nat} (h : v.toNat / 2 ^ start % 2 ^ len = 0) :
    v.extractLsb' start len = 0 := by
  apply BitVec.eq_of_toNat_eq
  rw [BitVec.extractLsb'_toNat, Nat.shiftRight_eq_div_pow, h]
  rfl

/-- R27 on the registers. -/
theorem encOk_iff {e : Enc} : encOk e = true ↔ e.v.toNat < 2 ^ e.n.toNat := BitStr.inRange_iff _

/-- R28 bounds the pending bits by their count. -/
theorem decOk_bounds {d : Dec} (h : decOk d = true) : d.pl.toNat ≤ 29 ∧ d.pv.toNat < 2 ^ d.pl.toNat := by
  rw [decOk, Bool.and_eq_true] at h
  exact isNode_bounds h.1

/-- Settles O18: the fields of the three views as numbers, whose widths leave the reserved bits 0. -/
theorem reservedBitsZero : Obligations.ReservedBitsZero := by
  refine ⟨fun s v h => ?_, fun s v h => ?_, fun s v h => ?_⟩
  · obtain rfl : regEncStatus s = v := Option.some.inj (exec_regRead_value.mp h)
    have hval := regEncStatus_toNat s
    have hn := s.enc.n.isLt
    have hv := s.enc.v.isLt
    refine ⟨extractLsb'_eq_zero (by omega), extractLsb'_eq_zero (by omega), fun ⟨henc, _⟩ => ?_⟩
    have hrange := encOk_iff.mp henc
    rw [hval, Nat.pow_add]
    omega
  · obtain rfl : regDecStatus s = v := Option.some.inj (exec_regRead_value.mp h)
    have hval := regDecStatus_toNat s
    have hpl := s.dec.pl.isLt
    have ha := Bool.toNat_lt (acceptFlag s.dec)
    have he := Bool.toNat_lt s.dec.err
    exact ⟨extractLsb'_eq_zero (by omega), extractLsb'_eq_zero (by omega)⟩
  · obtain rfl : regDecPrefix s = v := Option.some.inj (exec_regRead_value.mp h)
    have hval := regDecPrefix_toNat s
    have hpv := s.dec.pv.isLt
    refine ⟨extractLsb'_eq_zero (by omega), fun ⟨_, hdec⟩ => ?_⟩
    rw [hval]
    exact (decOk_bounds hdec).2

/-- DEC_STATUS shows ACCEPT at bit 8 (R33). -/
theorem regDecStatus_accept (s : State) : (regDecStatus s).getLsbD 8 = acceptFlag s.dec := by
  simp [regDecStatus]

/-- DEC_STATUS shows ERR at bit 9 (R33). -/
theorem regDecStatus_err (s : State) : (regDecStatus s).getLsbD 9 = s.dec.err := by
  simp [regDecStatus]

theorem finishCode_ok {d : Dec} : finishCode d = .ok ↔ acceptFlag d = true := by
  rw [finishCode, acceptFlag]
  split
  · simp_all
  · split <;> simp_all

theorem finishCode_malformed {d : Dec} : finishCode d = .malformed ↔ d.err = true := by
  rw [finishCode]
  split
  · simp_all
  · split <;> simp_all

/-- Settles O19: bits 8 and 9 are the two flags, and the flags choose the code of DEC_FINISH. -/
theorem acceptPredictsFinish : Obligations.AcceptPredictsFinish := fun s =>
  ⟨regDecStatus s, finishCode s.dec, exec_regRead_value.mpr (readRegister_decStatus s), exec_decFinish s,
    by rw [regDecStatus_accept, finishCode_ok], by rw [regDecStatus_err, finishCode_malformed]⟩

/-! ### The code: no codeword leads another, and every sequence starts with one -/

/-- A leaf ends its path: bits that go on from a leaf lead nowhere else. -/
theorem follow_leaf_append {t u : CodeTree} {as bs : List Bool} {k : Nat} (ha : t.follow as = some (.leaf k))
    (hab : t.follow (as ++ bs) = some u) : bs = [] ∧ u = .leaf k := by
  rw [follow_append, ha] at hab
  cases bs with
  | nil => exact ⟨rfl, by simpa [CodeTree.follow, eq_comm] using hab⟩
  | cons b bs => cases hab

/-- What leads the string of some bits is the string of their first bits. -/
theorem leading_ofBits_take {bs : List Bool} {k : Nat} (h : k ≤ bs.length) :
    (ofBits bs).leading k = ofBits (bs.take k) := by
  have hlead := leading_ofBits (bs.take k) (bs.drop k)
  rwa [List.take_append_drop, List.length_take_of_le h] at hlead

/-- A codeword that leads a codeword is that codeword (R23). -/
theorem codeword_leading_unique {a b : Nat} (ha : a < 257) (hb : b < 257)
    (hlen : (codeword a).len ≤ (codeword b).len) (hlead : (codeword b).leading (codeword a).len = codeword a) :
    a = b := by
  obtain ⟨as, hca, hfa⟩ := leaf_of_codeword ha
  obtain ⟨bs, hcb, hfb⟩ := leaf_of_codeword hb
  rw [hca, hcb, ofBits_len, ofBits_len] at hlen
  rw [hca, hcb, ofBits_len, leading_ofBits_take hlen] at hlead
  have hsplit : as ++ bs.drop as.length = bs := by
    conv_rhs => rw [← List.take_append_drop as.length bs, ofBits_injective hlead]
  rw [← hsplit] at hfb
  injection (follow_leaf_append hfa hfb).2 with hba
  exact hba.symm

/-- The first `n` bits of an infinite sequence, as a list. -/
def firstBitList (f : Nat → Bool) (n : Nat) : List Bool := (List.range n).map f

theorem firstBitList_succ (f : Nat → Bool) (n : Nat) :
    firstBitList f (n + 1) = f 0 :: firstBitList (fun k => f (k + 1)) n := by
  simp [firstBitList, List.range_succ_eq_map, Function.comp_def]

theorem firstBits_eq_ofBits (f : Nat → Bool) (n : Nat) : firstBits f n = ofBits (firstBitList f n) := by
  rw [firstBits, ofBits, firstBitList, List.foldl_map]

theorem firstBits_leading (f : Nat → Bool) {m n : Nat} (h : m ≤ n) : (firstBits f n).leading m = firstBits f m := by
  rw [firstBits_eq_ofBits, firstBits_eq_ofBits, leading_ofBits_take (by simpa [firstBitList] using h)]
  rw [firstBitList, ← List.map_take, List.take_range, min_eq_left h, firstBitList]

/-- An infinite sequence runs down every tree to a leaf. -/
theorem exists_leaf_of_sequence (t : CodeTree) (f : Nat → Bool) :
    ∃ n k, t.follow (firstBitList f n) = some (.leaf k) := by
  induction t generalizing f with
  | leaf k => exact ⟨0, k, rfl⟩
  | fork z o hz ho =>
    have hchild : ∃ n k, (if f 0 then o else z).follow (firstBitList (fun k => f (k + 1)) n) = some (.leaf k) := by
      cases f 0 with
      | false => exact hz _
      | true => exact ho _
    obtain ⟨n, k, h⟩ := hchild
    exact ⟨n + 1, k, by rw [firstBitList_succ]; exact h⟩

/-- Two codewords that start the same sequence are one: the shorter leads the longer. -/
theorem codeword_start_unique {f : Nat → Bool} {a b : Nat} (ha : a < 257) (hb : b < 257)
    (hfa : firstBits f (codeword a).len = codeword a) (hfb : firstBits f (codeword b).len = codeword b) : a = b := by
  rcases Nat.le_total (codeword a).len (codeword b).len with hlen | hlen
  · exact codeword_leading_unique ha hb hlen (by rw [← hfb, firstBits_leading f hlen, hfa])
  · exact (codeword_leading_unique hb ha hlen (by rw [← hfa, firstBits_leading f hlen, hfb])).symm

/-- The Kraft sum, in units of `2^-30`, is one (R23); added up over the 257 entries. -/
theorem kraftSum : ((List.range 257).map fun a => 2 ^ (30 - (ct a).len.toNat)).sum = 2 ^ 30 := by
  decide +kernel

/-- Settles O46: leaves end their paths, so no codeword leads another; a sequence runs down the tree to one leaf. -/
theorem codeComplete : Obligations.CodeComplete := by
  refine ⟨fun a b ha hb hne hlen hlead => ?_, kraftSum, fun f => ?_⟩
  · exact hne (codeword_leading_unique (Nat.lt_succ_of_le ha) (Nat.lt_succ_of_le hb) hlen hlead)
  · obtain ⟨n, k, hleaf⟩ := exists_leaf_of_sequence codeTree f
    obtain ⟨hk, hcode⟩ := codeword_of_leaf hleaf
    rw [← firstBits_eq_ofBits] at hcode
    have hstart : firstBits f (codeword k).len = codeword k := by
      have hn : (codeword k).len = n := by simp [hcode, firstBits_eq_ofBits, firstBitList]
      rw [hn, hcode]
    exact ⟨k, ⟨Nat.le_of_lt_succ hk, hstart⟩, fun j ⟨hj, hjstart⟩ =>
      codeword_start_unique (Nat.lt_succ_of_le hj) hk hjstart hstart⟩

/-! ### The ranges of the table -/

/-- The string of `k` one bits. -/
def onesOf (k : Nat) : BitStr := { len := k, val := 2 ^ k - 1 }

@[simp] theorem onesOf_len (k : Nat) : (onesOf k).len = k := rfl
@[simp] theorem onesOf_val (k : Nat) : (onesOf k).val = 2 ^ k - 1 := rfl

theorem onesOf_push (k : Nat) : (onesOf k).push true = onesOf (k + 1) := by
  have := Nat.two_pow_pos k
  ext
  · rfl
  · simp only [BitStr.push_val, onesOf_val, Bool.toNat_true, Nat.pow_succ]
    omega

theorem eq_onesOf_of_push {q : BitStr} {b : Bool} {k : Nat} (h : q.push b = onesOf (k + 1)) :
    b = true ∧ q = onesOf k := by
  have hlen : q.len + 1 = k + 1 := congrArg BitStr.len h
  have hval : 2 * q.val + b.toNat = 2 ^ (k + 1) - 1 := congrArg BitStr.val h
  have hpos := Nat.two_pow_pos k
  rw [Nat.pow_succ] at hval
  cases b with
  | false => simp at hval; omega
  | true =>
    refine ⟨rfl, ?_⟩
    ext
    · exact Nat.succ.inj hlen
    · simp only [onesOf_val, Bool.toNat_true] at hval ⊢
      omega

/-- One bits lead one bits. -/
theorem onesOf_leading {k n : Nat} (h : k ≤ n) : (onesOf n).leading k = onesOf k := by
  ext
  · rfl
  · apply Nat.eq_of_testBit_eq
    intro i
    rw [BitStr.leading_val, onesOf_len, onesOf_val, onesOf_val, Nat.testBit_shiftRight, Nat.testBit_two_pow_sub_one,
      Nat.testBit_two_pow_sub_one, decide_eq_decide]
    omega

/-- The EOS entry (R26 a). -/
theorem ct_eos : ct 256 = { code := 0x3fffffff, len := 30 } := by decide +kernel

theorem codeword_eos : codeword 256 = onesOf 30 := by
  rw [codeword, ct_eos]
  rfl

/-- The strings of 1 to 29 one bits, and the root, are nodes: they lead EOS (R26 c). -/
theorem isNode_onesOf {k : Nat} (h : k ≤ 29) : isNode (onesOf k) = true := by
  have heos : (codeword 256).len = 30 := by rw [codeword_eos]; rfl
  refine isNode_iff.mpr ⟨256, by decide, ?_, ?_⟩
  · rw [heos, onesOf_len]
    omega
  · rw [codeword_eos, onesOf_len, onesOf_leading (by omega)]

/-- A codeword of one bits is the EOS codeword. -/
theorem eos_of_codeword_ones {a k : Nat} (ha : a < 257) (hk : k ≤ 30) (h : codeword a = onesOf k) : a = 256 := by
  have hlen : (codeword a).len = k := by rw [h]; rfl
  refine codeword_leading_unique ha (by decide) ?_ ?_
  · rw [hlen, codeword_eos]
    exact hk
  · rw [hlen, codeword_eos, onesOf_leading hk, h]

/-- Settles O44: R21's ranges from the ROM, the rest from the EOS codeword, which leads with ones. -/
theorem codeTableRanges : Obligations.CodeTableRanges := by
  refine ⟨ctRom_length, fun a ha => ctRom_entry (codeword_mem (Nat.lt_succ_of_le ha)), ct_eos, fun k _ hk => ?_,
    fun a ha hlen hones => ?_, fun k _ hk => isNode_onesOf hk⟩
  · rw [codeword_eos]
    exact onesOf_leading (by omega)
  · have hcode : codeword a = onesOf (ct a).len.toNat := BitStr.ext_len_val rfl hones
    have heos := eos_of_codeword_ones (Nat.lt_succ_of_le ha) (by omega) hcode
    rw [heos, ct_eos] at hlen
    exact absurd hlen (by decide)

/-! ### No dead end -/

/-- A search that finds a codeword excludes a node: bits lead to a leaf or to a fork, not to both (R40). -/
theorem isNode_eq_false_of_findSymbol {w : BitStr} {k : Nat} (h : findSymbol w = some k) : isNode w = false := by
  obtain ⟨hk, hw⟩ := findSymbol_some h
  obtain ⟨bs, hbs, hleaf⟩ := leaf_of_codeword hk
  rw [Bool.eq_false_iff, ← hw, hbs]
  intro hnode
  obtain ⟨z, o, hfork⟩ := isNode_ofBits.mp hnode
  rw [hleaf] at hfork
  cases hfork

/-- One more bit after a node is a codeword or a node: a fork has both children (R40). -/
theorem codeword_or_node_of_push {q : BitStr} (b : Bool) (h : isNode q = true) :
    (∃ k, findSymbol (q.push b) = some k) ∨ isNode (q.push b) = true := by
  obtain ⟨bs, rfl⟩ := exists_ofBits (isNode_bounds h).2
  obtain ⟨z, o, hfork⟩ := isNode_ofBits.mp h
  have hchild : codeTree.follow (bs ++ [b]) = some (if b then o else z) := by
    rw [follow_append, hfork]
    rfl
  rw [← ofBits_snoc]
  cases hc : (if b then o else z) with
  | leaf k => exact Or.inl ⟨k, findSymbol_ofBits.mpr (hc ▸ hchild)⟩
  | fork z' o' => exact Or.inr (isNode_ofBits.mpr ⟨z', o', hc ▸ hchild⟩)

/-- Settles O48, by the two kinds of child of a fork. -/
theorem noDeadEnd : Obligations.NoDeadEnd := by
  intro q b hq
  rcases codeword_or_node_of_push b hq with ⟨k, hk⟩ | hnode
  · exact Or.inl ⟨by rw [hk]; rfl, isNode_eq_false_of_findSymbol hk⟩
  · refine Or.inr ⟨?_, hnode⟩
    cases hfind : findSymbol (q.push b) with
    | none => rfl
    | some k => rw [isNode_eq_false_of_findSymbol hfind] at hnode; cases hnode

/-! ### The canonical order -/

/-- The symbols in the order of the tree's leaves, from the zero side, which is R22's order. -/
def canonicalOrder : List Nat := (codeTree.leaves []).map Prod.snd

/-- R22 from one symbol to the next in order: later by length and symbol, with the code that the rule gives. -/
def canonicalNext (a b : Nat) : Bool :=
  (decide ((ct a).len.toNat < (ct b).len.toNat) || (decide ((ct a).len.toNat = (ct b).len.toNat) && decide (a < b))) &&
    decide ((ct b).code.toNat = ((ct a).code.toNat + 1) <<< ((ct b).len.toNat - (ct a).len.toNat))

theorem canonicalNext_iff {a b : Nat} :
    canonicalNext a b = true ↔ lexBefore ((ct a).len.toNat, a) ((ct b).len.toNat, b) ∧
      (ct b).code.toNat = ((ct a).code.toNat + 1) <<< ((ct b).len.toNat - (ct a).len.toNat) := by
  simp [canonicalNext, lexBefore]

/-- R22's rule between each two neighbours, checked over the order's 256 steps. -/
theorem canonicalOrder_isChain : canonicalOrder.IsChain (fun a b => canonicalNext a b = true) := by
  decide +kernel

theorem lexBefore_trans {a b c : Nat × Nat} (hab : lexBefore a b) (hbc : lexBefore b c) : lexBefore a c := by
  unfold lexBefore at *
  omega

theorem lexBefore_ne {a b : Nat × Nat} (h : lexBefore a b) : a ≠ b := by
  rintro rfl
  unfold lexBefore at h
  omega

/-- The order is sorted by length and symbol: neighbours are, and the relation is transitive. -/
theorem canonicalOrder_pairwise :
    canonicalOrder.Pairwise (fun a b => lexBefore ((ct a).len.toNat, a) ((ct b).len.toNat, b)) := by
  have htrans : IsTrans Nat (fun a b => lexBefore ((ct a).len.toNat, a) ((ct b).len.toNat, b)) :=
    ⟨fun _ _ _ => lexBefore_trans⟩
  exact List.isChain_iff_pairwise.mp (canonicalOrder_isChain.imp fun _ _ h => (canonicalNext_iff.mp h).1)

/-- The symbols of the leaves are all the symbols. -/
theorem mem_canonicalOrder {a : Nat} : a ∈ canonicalOrder ↔ a < 257 := by
  constructor
  · intro h
    obtain ⟨p, hp, rfl⟩ := List.mem_map.mp h
    have := List.all_eq_true.mp leaves_are_codewords p hp
    rw [Bool.and_eq_true, decide_eq_true_eq] at this
    exact this.1
  · intro h
    obtain ⟨bs, -, hleaf⟩ := leaf_of_codeword h
    exact List.mem_map.mpr ⟨_, mem_leaves [] hleaf, rfl⟩

theorem canonicalOrder_perm : canonicalOrder.Perm (List.range 257) := by
  have hnodup : canonicalOrder.Nodup :=
    canonicalOrder_pairwise.imp (S := (· ≠ ·)) fun h hab => lexBefore_ne h (by rw [hab])
  rw [List.perm_ext_iff_of_nodup hnodup List.nodup_range]
  intro a
  rw [mem_canonicalOrder, List.mem_range]

/-- Settles O45: the leaves of the tree, in order, with the recurrence read off between neighbours. -/
theorem codeTableCanonical : Obligations.CodeTableCanonical := by
  refine ⟨canonicalOrder, canonicalOrder_perm, canonicalOrder_pairwise, by decide +kernel, fun k hk => ?_⟩
  have hk' : k + 1 < canonicalOrder.length := by rw [canonicalOrder_perm.length_eq, List.length_range]; omega
  have hnext := List.isChain_iff_getElem.mp canonicalOrder_isChain k hk'
  rw [List.getD_eq_getElem _ _ hk', List.getD_eq_getElem _ _ (Nat.lt_of_succ_lt hk')]
  exact (canonicalNext_iff.mp hnext).2

/-! ### The nodes and their numbering -/

/-- The nodes of one depth are exactly the values that `nodesAt` lists (R38). -/
theorem mem_nodesAt {l v : Nat} : v ∈ nodesAt l ↔ isNode { len := l, val := v } = true := by
  induction l generalizing v with
  | zero =>
    rw [nodesAt, List.mem_singleton]
    constructor
    · rintro rfl
      exact isNode_root
    · intro h
      have hval := (isNode_bounds h).2
      simpa using hval
  | succ l ih =>
    simp only [nodesAt, List.mem_flatMap, List.mem_filter]
    constructor
    · rintro ⟨u, -, -, hv⟩
      exact hv
    · intro hv
      have hpush : ({ len := l + 1, val := v } : BitStr) =
          BitStr.push { len := l, val := v / 2 } (decide (v % 2 = 1)) := by
        ext
        · rfl
        · rcases Nat.mod_two_eq_zero_or_one v with h2 | h2 <;> simp [h2] <;> omega
      refine ⟨v / 2, ih.mpr (isNode_of_push (hpush ▸ hv)), ?_, hv⟩
      simp only [List.mem_cons, List.not_mem_nil, or_false]
      omega

/-- Every node is listed, and nothing else (R38, R39). -/
theorem mem_nodeList {q : BitStr} : q ∈ nodeList ↔ isNode q = true := by
  simp only [nodeList, List.mem_flatMap, List.mem_range, List.mem_map, mem_nodesAt]
  constructor
  · rintro ⟨l, -, v, hnode, rfl⟩
    exact hnode
  · intro hnode
    exact ⟨q.len, Nat.lt_succ_of_le (isNode_bounds hnode).1, q.val, hnode, rfl⟩

theorem nodesAt_pairwise (l : Nat) : (nodesAt l).Pairwise (· < ·) := by
  induction l with
  | zero => exact List.pairwise_singleton _ _
  | succ l ih =>
    rw [nodesAt, List.pairwise_flatMap]
    refine ⟨fun v _ => ?_, ih.imp fun {u v} huv x hx y hy => ?_⟩
    · exact List.Pairwise.filter _ (by simp)
    · simp only [List.mem_filter, List.mem_cons, List.not_mem_nil, or_false] at hx hy
      omega

/-- The list is sorted by depth and value (R39). -/
theorem nodeList_pairwise : nodeList.Pairwise (fun a b => lexBefore (a.len, a.val) (b.len, b.val)) := by
  rw [nodeList, List.pairwise_flatMap]
  refine ⟨fun l _ => ?_, List.pairwise_lt_range.imp fun {k l} hkl p hp q hq => ?_⟩
  · rw [List.pairwise_map]
    exact (nodesAt_pairwise l).imp fun huv => Or.inr ⟨rfl, huv⟩
  · obtain ⟨u, -, rfl⟩ := List.mem_map.mp hp
    obtain ⟨v, -, rfl⟩ := List.mem_map.mp hq
    exact Or.inl hkl

theorem nodeList_nodup : nodeList.Nodup :=
  nodeList_pairwise.imp (S := (· ≠ ·)) fun h hab => lexBefore_ne h (by rw [hab])

/-! The tree lists the nodes level by level too, without a scan of the table. -/

/-- Whether a subtree stands for a node: a leaf is a codeword (R38). -/
def CodeTree.isFork : CodeTree → Bool
  | .leaf _ => false
  | .fork _ _ => true

/-- The children of a fork that are forks, each with its value (R38). -/
def forkChildren : Nat × CodeTree → List (Nat × CodeTree)
  | (_, .leaf _) => []
  | (v, .fork z o) => [(2 * v, z), (2 * v + 1, o)].filter fun c => c.2.isFork

/-- The forks of depth `l` of the code tree, each with its value, ascending. -/
def forksAt : Nat → List (Nat × CodeTree)
  | 0 => [(0, codeTree)]
  | l + 1 => (forksAt l).flatMap forkChildren

theorem isNode_eq_isFork {bs : List Bool} {t : CodeTree} (h : codeTree.follow bs = some t) :
    isNode (ofBits bs) = t.isFork := by
  cases t with
  | leaf k => exact isNode_eq_false_of_findSymbol (findSymbol_ofBits.mpr h)
  | fork z o => exact isNode_ofBits.mpr ⟨z, o, h⟩

/-- One bit below a fork stands one of its children. -/
theorem follow_snoc {bs : List Bool} {z o : CodeTree} (b : Bool) (h : codeTree.follow bs = some (.fork z o)) :
    codeTree.follow (bs ++ [b]) = some (if b then o else z) := by
  rw [follow_append, h]
  rfl

/-- The value beside a subtree spells the path to it. -/
theorem path_of_mem_forksAt {l : Nat} {c : Nat × CodeTree} (h : c ∈ forksAt l) :
    ∃ bs, ofBits bs = { len := l, val := c.1 } ∧ codeTree.follow bs = some c.2 := by
  induction l generalizing c with
  | zero =>
    obtain rfl := List.mem_singleton.mp h
    exact ⟨[], rfl, rfl⟩
  | succ l ih =>
    obtain ⟨⟨v, t⟩, hmem, hc⟩ := List.mem_flatMap.mp h
    obtain ⟨bs, hbs, hfollow⟩ := ih hmem
    cases t with
    | leaf k => cases hc
    | fork z o =>
      rcases List.mem_cons.mp (List.mem_filter.mp hc).1 with rfl | hc
      · exact ⟨bs ++ [false], by rw [ofBits_snoc, hbs]; rfl, follow_snoc false hfollow⟩
      · obtain rfl := List.mem_singleton.mp hc
        exact ⟨bs ++ [true], by rw [ofBits_snoc, hbs]; rfl, follow_snoc true hfollow⟩

theorem isFork_of_mem_forksAt {l : Nat} {c : Nat × CodeTree} (h : c ∈ forksAt l) : c.2.isFork = true := by
  cases l with
  | zero =>
    obtain rfl := List.mem_singleton.mp h
    rfl
  | succ l =>
    obtain ⟨⟨v, t⟩, -, hc⟩ := List.mem_flatMap.mp h
    cases t with
    | leaf k => cases hc
    | fork z o => exact (List.mem_filter.mp hc).2

/-- The nodes one level below a fork are its children that are forks. -/
theorem nodes_below_fork {l v : Nat} {t : CodeTree} (h : (v, t) ∈ forksAt l) :
    ([2 * v, 2 * v + 1].filter fun w => isNode { len := l + 1, val := w }) = (forkChildren (v, t)).map Prod.fst := by
  obtain ⟨bs, hbs, hfollow⟩ := path_of_mem_forksAt h
  cases t with
  | leaf k => exact nomatch isFork_of_mem_forksAt h
  | fork z o =>
    have hchild (b : Bool) : isNode { len := l + 1, val := 2 * v + b.toNat } = (if b then o else z).isFork := by
      rw [← isNode_eq_isFork (follow_snoc b hfollow), ofBits_snoc, hbs]
      rfl
    have hz : isNode { len := l + 1, val := 2 * v } = z.isFork := hchild false
    have ho : isNode { len := l + 1, val := 2 * v + 1 } = o.isFork := hchild true
    simp only [forkChildren, List.filter_cons, List.filter_nil, hz, ho]
    cases z.isFork <;> cases o.isFork <;> rfl

/-- The tree's levels are the levels of nodes. -/
theorem nodesAt_eq_forks (l : Nat) : nodesAt l = (forksAt l).map Prod.fst := by
  induction l with
  | zero => rfl
  | succ l ih =>
    rw [nodesAt, ih, forksAt, List.flatMap_map, List.map_flatMap]
    exact List.flatMap_congr fun c hc => nodes_below_fork hc

theorem nodeList_eq_forks :
    nodeList = (List.range 30).flatMap fun l => (forksAt l).map fun c => { len := l, val := c.1 } := by
  simp only [nodeList, nodesAt_eq_forks, List.map_map]
  rfl

/-- R38's counts of nodes by depth. -/
theorem nodesAt_lengths : (List.range 30).map (fun l => (nodesAt l).length) =
    [1, 2, 4, 8, 16, 22, 18, 4, 2, 4, 3, 3, 4, 2, 2, 1, 2, 4, 8, 13, 18, 23, 20, 11, 10, 16, 17, 15, 1, 2] := by
  simp only [nodesAt_eq_forks, List.length_map]
  decide +kernel

theorem nodeList_length : nodeList.length = 256 := by
  rw [nodeList, List.length_flatMap]
  simp only [List.length_map]
  exact congrArg List.sum nodesAt_lengths

/-- The test of R39's search is equality. -/
theorem nodeEq_iff {p q : BitStr} : (Nat.beq p.len q.len && Nat.beq p.val q.val) = true ↔ p = q := by
  rw [Bool.and_eq_true, Nat.beq_eq, Nat.beq_eq]
  exact ⟨fun h => BitStr.ext_len_val h.1 h.2, by rintro rfl; exact ⟨rfl, rfl⟩⟩

theorem nodeOf_eq_getElem (i : BitVec 8) (h : i.toNat < nodeList.length) : nodeOf i = nodeList[i.toNat] :=
  List.getD_eq_getElem _ _ h

/-- The id of a string is its place in the list (R39), so it names the node back (R127). -/
theorem nodeId_eq_some {q : BitStr} {i : BitVec 8} : nodeId q = some i.toNat ↔ nodeOf i = q := by
  have hi : i.toNat < nodeList.length := by rw [nodeList_length]; exact i.isLt
  rw [nodeId, List.findIdx?_eq_some_iff_getElem, nodeOf_eq_getElem i hi]
  constructor
  · rintro ⟨_, hq, _⟩
    exact nodeEq_iff.mp hq
  · intro hq
    refine ⟨hi, nodeEq_iff.mpr hq, fun j hj hjq => ?_⟩
    have hsame := (nodeEq_iff.mp hjq).trans hq.symm
    exact absurd ((List.Nodup.getElem_inj_iff nodeList_nodup).mp hsame) (Nat.ne_of_lt hj)

theorem nodeId_lt {q : BitStr} {k : Nat} (h : nodeId q = some k) : k < 256 := by
  obtain ⟨hk, -⟩ := List.findIdx?_eq_some_iff_getElem.mp h
  rwa [nodeList_length] at hk

/-- Exactly the strings that are no node have no id. -/
theorem nodeId_eq_none {q : BitStr} : nodeId q = none ↔ isNode q = false := by
  rw [nodeId, List.findIdx?_eq_none_iff, Bool.eq_false_iff, Ne, ← mem_nodeList]
  constructor
  · intro h hq
    have hqq := h q hq
    rw [nodeEq_iff.mpr rfl] at hqq
    cases hqq
  · intro h p hp
    rw [Bool.eq_false_iff]
    intro hpq
    exact h (nodeEq_iff.mp hpq ▸ hp)

/-- Every node has an id below 256, and the id names it. -/
theorem exists_nodeId {q : BitStr} (h : isNode q = true) :
    ∃ k, k < 256 ∧ nodeId q = some k ∧ nodeOf (BitVec.ofNat 8 k) = q := by
  cases hid : nodeId q with
  | none => rw [nodeId_eq_none.mp hid] at h; cases h
  | some k =>
    have hk := nodeId_lt hid
    refine ⟨k, hk, rfl, nodeId_eq_some.mp ?_⟩
    rw [hid, BitVec.toNat_ofNat, Nat.mod_eq_of_lt hk]

/-- The ids of the all-ones nodes, by depth. -/
theorem nodeId_ones : (List.range 30).map (fun l => (nodeId (onesOf l)).getD 256) =
    [0, 2, 6, 14, 30, 52, 70, 74, 76, 80, 83, 86, 90, 92, 94, 95, 97, 101, 109, 122, 140, 163, 183, 194, 204, 220, 237,
      252, 253, 255] := by
  simp only [nodeId, nodeList_eq_forks]
  decide +kernel

/-- Settles O47: the list's laws from its recursion, the counts and ids read off the tree. -/
theorem nodeNumbering : Obligations.NodeNumbering := by
  refine ⟨fun q => mem_nodeList.symm, nodeList_length, nodeList_pairwise, fun q hq => ?_, fun q hq => exists_nodeId hq,
    fun q hq => nodeId_eq_none.mpr hq, nodesAt_lengths, nodeId_ones⟩
  exact isNode_bounds (mem_nodeList.mp hq)

/-! ### The decode automaton ROM -/

/-- The word's fields, as digits of one number (R41). -/
theorem DaEntry.word_toNat (e : DaEntry) : e.word.toNat =
    e.next.toNat + e.sym.toNat * 2 ^ 8 + e.emit.toNat * 2 ^ 17 + e.accept.toNat * 2 ^ 18 + e.fail.toNat * 2 ^ 19 := by
  have hadd {m n : Nat} (x : BitVec m) (y : BitVec n) : (x ++ y).toNat = x.toNat * 2 ^ n + y.toNat := by
    rw [BitVec.toNat_append, ← Nat.shiftLeft_add_eq_or_of_lt y.isLt, Nat.shiftLeft_eq]
  simp only [DaEntry.word, hadd, BitVec.toNat_ofBool]
  omega

/-- A bit of a word from the number the word is. -/
theorem getLsbD_of_toNat {w i : Nat} {x : BitVec w} {b : Bool} (h : x.toNat / 2 ^ i % 2 = b.toNat) :
    x.getLsbD i = b := by
  rw [BitVec.getLsbD, Nat.testBit_eq_decide_div_mod_eq, h]
  cases b <;> rfl

/-- A field of a word from the number the word is. -/
theorem extractLsb'_of_toNat {w start len : Nat} {x : BitVec w} {y : BitVec len}
    (h : x.toNat / 2 ^ start % 2 ^ len = y.toNat) : x.extractLsb' start len = y := by
  apply BitVec.eq_of_toNat_eq
  rw [BitVec.extractLsb'_toNat, Nat.shiftRight_eq_div_pow, h]

/-- A word's fields read back (R41). -/
theorem daFields_word (e : DaEntry) : daFields e.word = e := by
  have hword := e.word_toNat
  have hnext := e.next.isLt
  have hsym := e.sym.isLt
  have hemit := Bool.toNat_lt e.emit
  have haccept := Bool.toNat_lt e.accept
  have hfail := Bool.toNat_lt e.fail
  rw [daFields, getLsbD_of_toNat (b := e.fail) (by omega), getLsbD_of_toNat (b := e.accept) (by omega),
    getLsbD_of_toNat (b := e.emit) (by omega), extractLsb'_of_toNat (y := e.sym) (by omega),
    extractLsb'_of_toNat (y := e.next) (by omega)]

theorem da_eq_daEntry (q : BitVec 8) (nib : BitVec 4) : da q nib = daEntry q nib := daFields_word _

theorem daEntry_of_none {q : BitVec 8} {nib : BitVec 4} (h : nibbleWalk (nibbleBits nib) (nodeOf q) none = none) :
    daEntry q nib = { fail := true, accept := false, emit := false, sym := 0, next := 0 } := by
  rw [daEntry, h]

theorem daEntry_of_some {q : BitVec 8} {nib : BitVec 4} {sym : Option Byte} {cur : BitStr}
    (h : nibbleWalk (nibbleBits nib) (nodeOf q) none = some (sym, cur)) :
    daEntry q nib =
      { fail := false, accept := accepting cur, emit := sym.isSome, sym := (sym.getD 0).zeroExtend 9,
        next := BitVec.ofNat 8 ((nodeId cur).getD 0) } := by
  rw [daEntry, h]

/-- An entry fails exactly when its walk does (R40). -/
theorem daEntry_fail_iff {q : BitVec 8} {nib : BitVec 4} :
    (daEntry q nib).fail = true ↔ nibbleWalk (nibbleBits nib) (nodeOf q) none = none := by
  cases h : nibbleWalk (nibbleBits nib) (nodeOf q) none with
  | none => simp [daEntry_of_none h]
  | some r => simp [daEntry_of_some (sym := r.1) (cur := r.2) h]

/-- Settles O49: the number and the fields of a word, then the two kinds of entry. -/
theorem daromLayout : Obligations.DaromLayout := by
  refine ⟨DaEntry.word_toNat, da_eq_daEntry, fun q nib => ?_⟩
  rw [da_eq_daEntry]
  cases h : nibbleWalk (nibbleBits nib) (nodeOf q) none with
  | none =>
    rw [daEntry_of_none h]
    exact ⟨by decide, fun _ => rfl, fun _ => ⟨rfl, rfl, rfl⟩⟩
  | some r =>
    obtain ⟨sym, cur⟩ := r
    rw [daEntry_of_some h]
    refine ⟨?_, fun hemit => ?_, nofun⟩
    · have hbyte := (sym.getD 0).isLt
      rw [BitVec.toNat_setWidth]
      omega
    · rw [Option.isSome_eq_false_iff, Option.isNone_iff_eq_none] at hemit
      rw [hemit]
      rfl

/-! ### What a nibble can complete -/

/-- A codeword has at least 5 bits (R21). -/
theorem five_le_of_findSymbol {w : BitStr} {k : Nat} (h : findSymbol w = some k) : 5 ≤ w.len := by
  obtain ⟨hk, rfl⟩ := findSymbol_some h
  exact (ctRom_entry (codeword_mem hk)).1

/-- Fewer than 5 bits since a symbol boundary complete nothing. -/
theorem walk_short {bs : List Bool} {q cur : BitStr} {out out' : List Byte} (hlen : q.len + bs.length < 5)
    (h : walk bs q out = some (out', cur)) : out' = out := by
  induction bs generalizing q with
  | nil => cases h; rfl
  | cons b bs ih =>
    rw [List.length_cons] at hlen
    rw [walk_cons] at h
    cases hd : dstep q b with
    | fail => rw [hd] at h; cases h
    | sym a n =>
      obtain ⟨k, hk, -⟩ := dstep_sym hd
      have := five_le_of_findSymbol hk
      rw [BitStr.push_len] at this
      omega
    | mid n =>
      obtain ⟨-, -, rfl⟩ := dstep_mid hd
      rw [hd] at h
      exact ih (by rw [BitStr.push_len]; omega) h

/-- Five bits or fewer complete at most one symbol: what is left after it is too short for another (R42 a). -/
theorem walk_nibble_length {bs : List Bool} {q cur : BitStr} {out out' : List Byte} (hlen : bs.length ≤ 5)
    (h : walk bs q out = some (out', cur)) : out'.length ≤ out.length + 1 := by
  induction bs generalizing q with
  | nil => cases h; exact Nat.le_succ _
  | cons b bs ih =>
    rw [List.length_cons] at hlen
    rw [walk_cons] at h
    cases hd : dstep q b with
    | fail => rw [hd] at h; cases h
    | sym a n =>
      obtain ⟨-, -, -, -, rfl⟩ := dstep_sym hd
      rw [hd] at h
      rw [walk_short (by rw [BitStr.empty_len]; omega) h, List.length_append, List.length_singleton]
    | mid n => rw [hd] at h; exact ih (by omega) h

/-- From a node a step fails only when EOS completes: there is no dead end (R40). -/
theorem eos_of_dstep_fail {q : BitStr} {b : Bool} (hq : isNode q = true) (h : dstep q b = .fail) :
    q.push b = onesOf 30 := by
  rcases dstep_fail h with heos | ⟨hnone, hnode⟩
  · rw [← codeword_eos, (findSymbol_some heos).2]
  · rcases codeword_or_node_of_push b hq with ⟨k, hk⟩ | hnode'
    · rw [hnone] at hk; cases hk
    · rw [hnode] at hnode'; cases hnode'

/-- The pending bits `q` are ones, and the next bits of `bs` fill them up to the thirty ones of EOS (R161 a). -/
def CompletesEos (q : BitStr) (bs : List Bool) : Prop :=
  ∃ l, q = onesOf l ∧ List.replicate (30 - l) true <+: bs

/-- Taking one bit changes nothing, short of the thirty. -/
theorem completesEos_cons {q : BitStr} {b : Bool} {bs : List Bool} (hlen : q.len ≤ 29) :
    CompletesEos q (b :: bs) ↔ CompletesEos (q.push b) bs := by
  constructor
  · rintro ⟨l, rfl, rest, hbits⟩
    have hcount : 30 - l = 30 - (l + 1) + 1 := by rw [onesOf_len] at hlen; omega
    rw [hcount, List.replicate_succ, List.cons_append] at hbits
    injection hbits with hb hbs
    subst hb
    exact ⟨l + 1, onesOf_push l, rest, hbs⟩
  · rintro ⟨l, hpush, rest, rfl⟩
    have hl : q.len + 1 = l := congrArg BitStr.len hpush
    subst hl
    obtain ⟨rfl, hq⟩ := eq_onesOf_of_push hpush
    have hcount : 30 - q.len = 30 - (q.len + 1) + 1 := by omega
    exact ⟨q.len, hq, rest, by rw [hcount, List.replicate_succ, List.cons_append]⟩

/-- From the root, thirty bits are needed. -/
theorem not_completesEos_empty {bs : List Bool} (hlen : bs.length < 30) : ¬ CompletesEos BitStr.empty bs := by
  rintro ⟨l, hl, hones⟩
  obtain rfl : 0 = l := congrArg BitStr.len hl
  have hcount := hones.length_le
  rw [List.length_replicate] at hcount
  omega

/-- A symbol's codeword is not of one bits, so it does not go on to EOS. -/
theorem not_completesEos_codeword {k : Nat} {bs : List Bool} (hk : k < 256) : ¬ CompletesEos (codeword k) bs := by
  rintro ⟨l, hl, -⟩
  have hlen : (codeword k).len = l := congrArg BitStr.len hl
  have h30 := (ctRom_entry (codeword_mem (Nat.lt_succ_of_lt hk))).2.1
  rw [codeword_len] at hlen
  exact absurd (eos_of_codeword_ones (Nat.lt_succ_of_lt hk) (by omega) hl) (by omega)

theorem nibbleWalk_cons (b : Bool) (bs : List Bool) (q : BitStr) (sym : Option Byte) :
    nibbleWalk (b :: bs) q sym =
      match dstep q b with
      | .fail => none
      | .sym s n => nibbleWalk bs n (some s)
      | .mid n => nibbleWalk bs n sym := rfl

/-- A walk of fewer than 30 bits from a node fails exactly when EOS completes from the pending bits on. -/
theorem nibbleWalk_eq_none {bs : List Bool} {q : BitStr} {sym : Option Byte} (hq : isNode q = true)
    (hlen : bs.length < 30) : nibbleWalk bs q sym = none ↔ CompletesEos q bs := by
  induction bs generalizing q sym with
  | nil =>
    refine ⟨nofun, ?_⟩
    rintro ⟨l, rfl, hones⟩
    have hl := (isNode_bounds hq).1
    have hcount := hones.length_le
    rw [onesOf_len] at hl
    rw [List.length_replicate, List.length_nil] at hcount
    omega
  | cons b bs ih =>
    have hbs : bs.length < 30 := Nat.lt_of_succ_lt hlen
    rw [completesEos_cons (isNode_bounds hq).1, nibbleWalk_cons]
    cases hd : dstep q b with
    | fail => exact ⟨fun _ => ⟨30, eos_of_dstep_fail hq hd, bs, rfl⟩, fun _ => rfl⟩
    | sym a n =>
      obtain ⟨k, hfind, hk, -, rfl⟩ := dstep_sym hd
      rw [← (findSymbol_some hfind).2]
      exact iff_of_false (fun h => not_completesEos_empty hbs ((ih isNode_root hbs).mp h))
        (not_completesEos_codeword hk)
    | mid n =>
      obtain ⟨-, hn, rfl⟩ := dstep_mid hd
      exact ih hn hbs

/-- Every id names a node (R39). -/
theorem isNode_nodeOf (i : BitVec 8) : isNode (nodeOf i) = true := by
  rw [nodeOf_eq_getElem i (by rw [nodeList_length]; exact i.isLt)]
  exact mem_nodeList.mp (List.getElem_mem _)

/-- The ids of the four deepest all-ones nodes, from which four bits can reach EOS. -/
theorem nodeId_ones_deep : nodeId (onesOf 26) = some 237 ∧ nodeId (onesOf 27) = some 252 ∧
    nodeId (onesOf 28) = some 253 ∧ nodeId (onesOf 29) = some 255 := by
  simp only [nodeId, nodeList_eq_forks]
  decide +kernel

theorem nodeOf_eq_iff {i j : BitVec 8} {q : BitStr} (h : nodeId q = some j.toNat) : nodeOf i = q ↔ i = j := by
  rw [← nodeId_eq_some, h, Option.some_inj, BitVec.toNat_inj, eq_comm]

/-- The bits of a nibble start with `j` ones exactly when its number is one of the last `2^(4 - j)`. -/
theorem nibbleBits_ones {j : Nat} (hj : j ≤ 4) (nib : BitVec 4) :
    List.replicate j true <+: nibbleBits nib ↔ 16 - 2 ^ (4 - j) ≤ nib.toNat := by
  revert nib
  interval_cases j <;> decide

/-- A nibble reaches EOS only from the four deepest all-ones nodes. -/
theorem completesEos_nibble {q : BitStr} {nib : BitVec 4} (hq : isNode q = true) :
    CompletesEos q (nibbleBits nib) ↔
      (q = onesOf 26 ∧ 15 ≤ nib.toNat) ∨ (q = onesOf 27 ∧ 14 ≤ nib.toNat) ∨
      (q = onesOf 28 ∧ 12 ≤ nib.toNat) ∨ (q = onesOf 29 ∧ 8 ≤ nib.toNat) := by
  have hones {l : Nat} (hl : 26 ≤ l) := nibbleBits_ones (j := 30 - l) (by omega) nib
  constructor
  · rintro ⟨l, rfl, hbits⟩
    have hlen := (isNode_bounds hq).1
    have hcount := hbits.length_le
    rw [onesOf_len] at hlen
    rw [List.length_replicate, nibbleBits_length] at hcount
    have hl : 26 ≤ l := by omega
    rw [hones hl] at hbits
    interval_cases l
    · exact Or.inl ⟨rfl, hbits⟩
    · exact Or.inr (Or.inl ⟨rfl, hbits⟩)
    · exact Or.inr (Or.inr (Or.inl ⟨rfl, hbits⟩))
    · exact Or.inr (Or.inr (Or.inr ⟨rfl, hbits⟩))
  · rintro (⟨rfl, h⟩ | ⟨rfl, h⟩ | ⟨rfl, h⟩ | ⟨rfl, h⟩)
    · exact ⟨26, rfl, (hones (by decide)).mpr h⟩
    · exact ⟨27, rfl, (hones (by decide)).mpr h⟩
    · exact ⟨28, rfl, (hones (by decide)).mpr h⟩
    · exact ⟨29, rfl, (hones (by decide)).mpr h⟩

/-- Settles O50: the walk of a nibble for (a), its failures for (b), and row 0 from the root's sixteen walks. -/
theorem daromProperties : Obligations.DaromProperties := by
  obtain ⟨h26, h27, h28, h29⟩ := nodeId_ones_deep
  refine ⟨fun q nib out cur h => walk_nibble_length (by rw [nibbleBits_length]; decide) h, fun q nib => ?_, ?_⟩
  · rw [da_eq_daEntry, daEntry_fail_iff, nibbleWalk_eq_none (isNode_nodeOf q) (by rw [nibbleBits_length]; decide),
      completesEos_nibble (isNode_nodeOf q), nodeOf_eq_iff (j := 237) h26, nodeOf_eq_iff (j := 252) h27,
      nodeOf_eq_iff (j := 253) h28, nodeOf_eq_iff (j := 255) h29]
  · simp only [da_eq_daEntry]
    decide +kernel

end Sys2Proof.Machine

namespace Sys2Proof.Machine

/-! ### What a command reads -/

/-- A byte that fails on the pending bits: the MALFORMED exit (R124, R125). -/
theorem exec_decFeed_of_walk_none {b : Byte} {s : State} (herr : s.dec.err = false) (hpl : s.dec.pl.toNat ≤ 29)
    (hwalk : walk (byteBits b) s.dec.bits [] = none) : exec (.decFeed b) s = .next (malformed s) := by
  have hlmax : ¬ Config.lmax ≤ s.dec.pl.toNat := Nat.not_le.mpr (Nat.lt_succ_of_le hpl)
  simp [exec_decFeed, decFeedWith, consumeByte, herr, hlmax, hwalk]

/-- A byte that walks from the pending bits: its symbols are emitted and the remainder is kept (R124). -/
theorem exec_decFeed_of_walk_some {b : Byte} {s : State} {out : List Byte} {cur : BitStr} (herr : s.dec.err = false)
    (hpl : s.dec.pl.toNat ≤ 29) (hwalk : walk (byteBits b) s.dec.bits [] = some (out, cur)) :
    exec (.decFeed b) s = .next (replyDec out (setDecBits cur s)) := by
  have hlmax : ¬ Config.lmax ≤ s.dec.pl.toNat := Nat.not_le.mpr (Nat.lt_succ_of_le hpl)
  simp [exec_decFeed, decFeedWith, consumeByte, herr, hlmax, hwalk]

/-- The registers show the two engines alone (R30 to R34). -/
theorem readRegister_withResponses (i : Nat) (s : State) (rs : List Response) :
    readRegister i { s with responses := rs } = readRegister i s := by
  unfold readRegister
  split <;> rfl

/-- NOP and REG_READ give one response, which no earlier response affects, and write nothing else (R66). -/
theorem exec_read {i : Instr} (s : State) (h : i = .nop ∨ ∃ j, i = .regRead j) :
    ∃ r, ∀ rs, exec i { s with responses := rs } = .next { s with responses := rs ++ [r] } := by
  rcases h with rfl | ⟨j, rfl⟩
  · exact ⟨_, fun rs => exec_nop { s with responses := rs }⟩
  · have hsame := readRegister_withResponses (registerIndex j) s
    cases hread : readRegister (registerIndex j) s with
    | some v => exact ⟨_, fun rs => exec_regRead_of_some ((hsame rs).trans hread)⟩
    | none => exact ⟨_, fun rs => exec_regRead_of_none ((hsame rs).trans hread)⟩

/-- Settles O20: the response of `exec_read` serves both times, as it does not depend on the earlier ones. -/
theorem readsArePure : Obligations.ReadsArePure := by
  intro i s h
  obtain ⟨r, hr⟩ := exec_read s h
  exact ⟨r, hr s.responses, hr (s.responses ++ [r])⟩

/-- The encoder's registers alone fix what an encoder command writes and answers (R69). -/
theorem exec_encoder_of_enc {i : Instr} (e : Enc) (h : isEncoder i = true) :
    ∃ e' r, ∀ s : State, s.enc = e → exec i s = .next { s with enc := e', responses := s.responses ++ [r] } := by
  cases i with
  | nop | decInit | decFeed | decFinish | regRead => cases h
  | encInit => exact ⟨_, _, fun s _ => exec_encInit s⟩
  | encByte b => exact ⟨_, _, fun s hs => hs ▸ exec_encByte b s⟩
  | encFinish => exact ⟨_, _, fun s hs => hs ▸ exec_encFinish s⟩

/-- The decoder's registers alone fix what a DEC_FEED outside X16's state writes and answers (R69, R124, R125). -/
theorem exec_decFeed_of_dec (b : Byte) (d : Dec) (hpl : d.pl.toNat ≤ 29) :
    ∃ d' r, ∀ s : State, s.dec = d →
      exec (.decFeed b) s = .next { s with dec := d', responses := s.responses ++ [r] } := by
  cases herr : d.err with
  | true => exact ⟨d, _, fun s hs => by subst hs; exact exec_decFeed_sticky b herr⟩
  | false =>
    cases hwalk : walk (byteBits b) d.bits [] with
    | none => exact ⟨_, _, fun s hs => by subst hs; exact exec_decFeed_of_walk_none herr hpl hwalk⟩
    | some p =>
      exact ⟨decOf p.2 d.err, { code := .ok, data := 0, encOut := [], decOut := p.1 }, fun s hs => by
        subst hs; exact exec_decFeed_of_walk_some herr hpl hwalk⟩

/-- The decoder's registers alone fix what a decoder command outside X16's state writes and answers (R69). -/
theorem exec_decoder_of_dec {i : Instr} (d : Dec) (h : isDecoder i = true) (hpl : d.pl.toNat ≤ 29) :
    ∃ d' r, ∀ s : State, s.dec = d → exec i s = .next { s with dec := d', responses := s.responses ++ [r] } := by
  cases i with
  | nop | encInit | encByte | encFinish | regRead => cases h
  | decInit => exact ⟨_, _, fun s _ => exec_decInit s⟩
  | decFeed b => exact exec_decFeed_of_dec b d hpl
  | decFinish => exact ⟨_, _, fun s hs => hs ▸ exec_decFinish s⟩

/-- Settles O42: what a command writes and answers is fixed by its own engine's registers, which the two states share. -/
theorem enginesIndependent : Obligations.EnginesIndependent := by
  refine ⟨fun i s s' hi hs => ?_, fun i s s' hi hs hpl => ?_⟩
  · obtain ⟨e, r, hexec⟩ := exec_encoder_of_enc s.enc hi
    exact ⟨e, r, hexec s rfl, hexec s' hs.symm⟩
  · obtain ⟨d, r, hexec⟩ := exec_decoder_of_dec s.dec hi hpl
    exact ⟨d, r, hexec s rfl, hexec s' hs.symm⟩

end Sys2Proof.Machine

namespace Sys2Proof.Machine

/-! ### One word per command -/

/-- The high field of a concatenation, as a number, stands above the low one. -/
theorem toNat_append_eq_add {m n : Nat} (x : BitVec m) (y : BitVec n) :
    (x ++ y).toNat = x.toNat * 2 ^ n + y.toNat := by
  rw [BitVec.toNat_append, ← Nat.shiftLeft_add_eq_or_of_lt y.isLt, Nat.shiftLeft_eq]

/-- The word of three fields, as digits of one number (R81). -/
theorem joinFields_toNat (f : Fields) :
    (joinFields f).toNat = f.op.toNat * 2 ^ 12 + f.rsv.toNat * 2 ^ 8 + f.opnd.toNat := by
  simp only [joinFields, toNat_append_eq_add]
  omega

/-- Splitting the word that holds three fields gives the fields (R81). -/
@[simp] theorem splitFields_joinFields (f : Fields) : splitFields (joinFields f) = f := by
  have hword := joinFields_toNat f
  have hop := f.op.isLt
  have hrsv := f.rsv.isLt
  have hopnd := f.opnd.isLt
  rw [splitFields, extractLsb'_of_toNat (y := f.op) (by omega), extractLsb'_of_toNat (y := f.rsv) (by omega),
    extractLsb'_of_toNat (y := f.opnd) (by omega)]

@[simp] theorem splitFields_encode (i : Instr) : splitFields (encode i) = fieldsOf i := splitFields_joinFields _

/-- R84 read backwards: a word with the fields of a command decodes to it. -/
theorem decode_of_fieldsOf {w : Command} {i : Instr} (h : splitFields w = fieldsOf i) : decode w = .ok i := by
  rw [decode, h]
  cases i <;> rfl

/-- Decoding and encoding are inverse to each other: the one word of a command is the one that decodes to it (R84). -/
theorem decode_eq_ok_iff {w : Command} {i : Instr} : decode w = .ok i ↔ encode i = w := by
  constructor
  · exact encode_of_decode
  · rintro rfl
    exact decode_of_fieldsOf (splitFields_encode i)

theorem decode_encode (i : Instr) : decode (encode i) = .ok i := decode_eq_ok_iff.mpr rfl

theorem encode_injective : Function.Injective encode := by
  intro i j h
  have hd := decode_eq_ok_iff.mpr h
  rw [decode_encode] at hd
  exact (Except.ok.inj hd).symm

/-- Settles O2: `decode_encode`, from the fields of a command's word. -/
theorem decodeEncode : Obligations.DecodeEncode := decode_encode

/-- Settles O3: a decoded word has the fields of its command, and fields make one word. -/
theorem encodeDecode : Obligations.EncodeDecode := fun _ _ => encode_of_decode

/-- Settles O5: each word is `encode` of its command, so `decode_encode` gives it back. -/
theorem sampleWords : Obligations.SampleWords :=
  ⟨decode_encode (.encByte 0x77), decode_encode (.decFeed 0xF1), decode_encode (.regRead 2), decode_encode .nop,
    decode_encode .encInit, decode_encode .encFinish, decode_encode .decInit, decode_encode .decFinish⟩

/-! ### The legal words -/

theorem isLegal_iff {w : Command} : isLegal w = true ↔ ∃ i, encode i = w := by
  simp only [← decode_eq_ok_iff]
  cases h : decode w <;> simp [isLegal, h]

theorem isLegal_eq_false_iff {w : Command} : isLegal w = false ↔ ∃ e, decode w = .error e := by
  cases h : decode w <;> simp [isLegal, h]

/-- R83: what the three field checks say. -/
theorem wellFormed_iff {f : Fields} :
    f.wellFormed = true ↔
      f.rsv = 0 ∧ f.op.toNat < 8 ∧ ((f.op = 0x2 ∨ f.op = 0x5 ∨ f.op = 0x7) ∨ f.opnd = 0) := by
  simp [Fields.wellFormed, Fields.rsvZero, Fields.opDefined, Fields.opndAllowed, Fields.takesOperand, and_assoc, or_assoc]

theorem fieldsOf_wellFormed (i : Instr) : (fieldsOf i).wellFormed = true := by
  cases i <;> rfl

theorem wellFormed_instr (i : Instr) : i.wellFormed = true := by
  cases i with
  | nop | encInit | encFinish | decInit | decFinish => rfl
  | encByte b | decFeed b | regRead b => exact decide_eq_true b.isLt

/-- The defined opcodes (R82). -/
theorem opcode_cases {op : BitVec 4} (h : op.toNat < 8) :
    op = 0x0 ∨ op = 0x1 ∨ op = 0x2 ∨ op = 0x3 ∨ op = 0x4 ∨ op = 0x5 ∨ op = 0x6 ∨ op = 0x7 := by
  revert op
  decide

/-- Fields that pass the checks are some command's (R82). -/
theorem exists_fieldsOf {f : Fields} (h : f.wellFormed = true) : ∃ i, fieldsOf i = f := by
  obtain ⟨op, rsv, opnd⟩ := f
  obtain ⟨hrsv, hop, hopnd⟩ := wellFormed_iff.mp h
  dsimp only at hrsv hop hopnd
  subst hrsv
  have hzero (h : ¬ (op = 0x2 ∨ op = 0x5 ∨ op = 0x7)) : opnd = 0 := hopnd.resolve_left h
  rcases opcode_cases hop with rfl | rfl | rfl | rfl | rfl | rfl | rfl | rfl
  · exact ⟨.nop, by rw [hzero (by decide)]; rfl⟩
  · exact ⟨.encInit, by rw [hzero (by decide)]; rfl⟩
  · exact ⟨.encByte opnd, rfl⟩
  · exact ⟨.encFinish, by rw [hzero (by decide)]; rfl⟩
  · exact ⟨.decInit, by rw [hzero (by decide)]; rfl⟩
  · exact ⟨.decFeed opnd, rfl⟩
  · exact ⟨.decFinish, by rw [hzero (by decide)]; rfl⟩
  · exact ⟨.regRead opnd, rfl⟩

/-- The three checks on the fields accept exactly the words that decode. -/
theorem wellFormed_splitFields (w : Command) : (splitFields w).wellFormed = isLegal w := by
  rw [Bool.eq_iff_iff, isLegal_iff]
  constructor
  · intro h
    obtain ⟨i, hi⟩ := exists_fieldsOf h
    exact ⟨i, by rw [encode, hi, joinFields_splitFields]⟩
  · rintro ⟨i, rfl⟩
    rw [splitFields_encode]
    exact fieldsOf_wellFormed i

/-- Settles O4: the checks pass exactly the fields that some command has. -/
theorem wellFormedWords : Obligations.WellFormedWords :=
  ⟨wellFormed_splitFields, fun i => ⟨wellFormed_instr i, fieldsOf_wellFormed i, splitFields_encode i⟩⟩

/-- A word whose fields fail a check is refused (R84). -/
theorem decode_joinFields_error {f : Fields} (h : ¬ f.wellFormed = true) : ∃ e, decode (joinFields f) = .error e := by
  rw [← isLegal_eq_false_iff, ← wellFormed_splitFields, splitFields_joinFields]
  exact Bool.eq_false_iff.mpr h

/-! ### How many words are legal -/

/-- Every byte, in order. -/
def allBytes : List Byte := (List.range 256).map (BitVec.ofNat 8)

theorem mem_allBytes (b : Byte) : b ∈ allBytes :=
  List.mem_map.mpr ⟨b.toNat, List.mem_range.mpr b.isLt, by simp⟩

theorem allBytes_nodup : allBytes.Nodup := by
  refine List.nodup_range.map_on fun m hm n hn h => ?_
  have hval := congrArg BitVec.toNat h
  simpa [Nat.mod_eq_of_lt (List.mem_range.mp hm), Nat.mod_eq_of_lt (List.mem_range.mp hn)] using hval

/-- Every command with every operand: R82's five rows without operand and 256 times three with one. -/
def allCommands : List Instr :=
  [.nop, .encInit, .encFinish, .decInit, .decFinish] ++
    (allBytes.map Instr.encByte ++ (allBytes.map Instr.decFeed ++ allBytes.map Instr.regRead))

theorem mem_allCommands (i : Instr) : i ∈ allCommands := by
  cases i <;> simp [allCommands, mem_allBytes]

theorem allCommands_nodup : allCommands.Nodup := by
  have hencByte : (allBytes.map Instr.encByte).Nodup := allBytes_nodup.map fun _ _ => Instr.encByte.inj
  have hdecFeed : (allBytes.map Instr.decFeed).Nodup := allBytes_nodup.map fun _ _ => Instr.decFeed.inj
  have hregRead : (allBytes.map Instr.regRead).Nodup := allBytes_nodup.map fun _ _ => Instr.regRead.inj
  simp only [allCommands, List.nodup_append, hencByte, hdecFeed, hregRead, List.mem_append, List.mem_map]
  refine ⟨by decide, ⟨trivial, ⟨trivial, trivial, ?_⟩, ?_⟩, ?_⟩
  · rintro _ ⟨b, -, rfl⟩ _ ⟨c, -, rfl⟩
    nofun
  · rintro _ ⟨b, -, rfl⟩ _ (⟨c, -, rfl⟩ | ⟨c, -, rfl⟩) <;> nofun
  · rintro i hi _ (⟨c, -, rfl⟩ | ⟨c, -, rfl⟩ | ⟨c, -, rfl⟩) rfl <;> simp at hi

theorem allCommands_length : allCommands.length = 773 := by
  simp [allCommands, allBytes]

/-- The numbers of the legal words are those of the commands' words, each once. -/
theorem legalNumbers_perm :
    ((List.range 65536).filter fun n => isLegal (BitVec.ofNat 16 n)).Perm
      (allCommands.map fun i => (encode i).toNat) := by
  refine (List.perm_ext_iff_of_nodup (List.nodup_range.filter _) (allCommands_nodup.map ?_)).mpr fun n => ?_
  · exact fun i j h => encode_injective (BitVec.eq_of_toNat_eq h)
  · simp only [List.mem_filter, List.mem_range, isLegal_iff, List.mem_map]
    constructor
    · rintro ⟨hn, i, hi⟩
      exact ⟨i, mem_allCommands i, by rw [hi, BitVec.toNat_ofNat, Nat.mod_eq_of_lt hn]⟩
    · rintro ⟨i, -, rfl⟩
      exact ⟨(encode i).isLt, i, by simp⟩

/-- The elements that fail a test are those left by the ones that pass it. -/
theorem countP_not {α : Type} (p : α → Bool) (l : List α) : l.countP (fun a => !p a) = l.length - l.countP p := by
  rw [List.countP_eq_length_filter, List.countP_eq_length_filter, l.length_eq_length_filter_add p,
    Nat.add_sub_cancel_left]

theorem countP_isLegal : (List.range 65536).countP (fun n => isLegal (BitVec.ofNat 16 n)) = 773 := by
  rw [List.countP_eq_length_filter, legalNumbers_perm.length_eq, List.length_map, allCommands_length]

theorem countP_not_isLegal : (List.range 65536).countP (fun n => !isLegal (BitVec.ofNat 16 n)) = 64763 := by
  rw [countP_not, countP_isLegal, List.length_range]

/-- R85: a REG_READ of a reserved index answers INVALID and changes nothing else. -/
theorem exec_regRead_reserved {i : Byte} (s : State) (h : 4 ≤ i.toNat) :
    exec (.regRead i) s = .next (answered .invalid 0 [] [] s) :=
  exec_regRead_of_none (readRegister_reserved s h)

/-- Settles O1: a word is refused when its fields fail a check, each command has its word, and the counts are those of the
commands. -/
theorem decodeTable : Obligations.DecodeTable := by
  refine ⟨fun op rsv opnd h => ?_, fun op opnd h => ?_, fun op opnd hop h => ?_,
    ⟨decode_encode .nop, decode_encode .encInit, decode_encode .encFinish, decode_encode .decInit,
      decode_encode .decFinish⟩,
    fun b => decode_encode (.encByte b), fun b => decode_encode (.decFeed b), fun i => decode_encode (.regRead i),
    countP_isLegal, countP_not_isLegal, fun s i h => exec_regRead_reserved s h⟩
  · exact decode_joinFields_error (f := ⟨op, rsv, opnd⟩) fun hwf => h (wellFormed_iff.mp hwf).1
  · exact decode_joinFields_error (f := ⟨op, 0, opnd⟩) fun hwf => Nat.not_lt.mpr h (wellFormed_iff.mp hwf).2.1
  · refine decode_joinFields_error (f := ⟨op, 0, opnd⟩) fun hwf => ?_
    rcases (wellFormed_iff.mp hwf).2.2 with htakes | hzero
    · simp only [List.mem_cons, List.not_mem_nil, or_false] at hop
      rcases hop with rfl | rfl | rfl | rfl | rfl <;> simp at htakes
    · exact h hzero

/-! ### What a step does with its input -/

/-- R84, R85: the step takes an ILLEGAL word off the port and answers INVALID. -/
theorem step_of_illegal {s : State} {w : Command} {rest : List HostInput} {e : Illegal}
    (hp : s.port = .command w :: rest) (hd : decode w = .error e) :
    step s = .next (answered .invalid 0 [] [] { s with port := rest }) := by
  simp only [step, takeInput_cons hp, hd]
  rfl

theorem step_of_empty {s : State} (hp : s.port = []) : step s = .next s := by
  simp only [step, takeInput_empty hp]

theorem step_of_reset {s : State} {rest : List HostInput} (hp : s.port = .reset :: rest) :
    step s = .next (resetBlock { s with port := rest }) := by
  simp only [step, takeInput_cons hp]

/-- Settles O8: `step_of_illegal`, `exec_regRead_reserved`, and NOP's one word. -/
theorem invalidEffect : Obligations.InvalidEffect := by
  refine ⟨fun s w rest hp hw => ?_, fun s i h => exec_regRead_reserved s h, fun w => ?_⟩
  · obtain ⟨e, hd⟩ := isLegal_eq_false_iff.mp hw
    exact step_of_illegal hp hd
  · rw [decode_eq_ok_iff, eq_comm]
    rfl

/-- Under the invariant every command answers: X16's state has 30 or more pending bits, a node at most 29 (R28). -/
theorem exec_next_of_inv {s : State} (i : Instr) (hs : s.Inv) : ∃ t, exec i s = .next t := by
  rcases exec_next_or_stuck i s with hnext | ⟨⟨b, rfl⟩, hstuck⟩
  · exact hnext
  · have hpl := (decOk_bounds hs.2).1
    have := ((stuckExactly.1 b s).mp hstuck).2
    omega

/-- Settles O10, by the head of the port; a command answers by `exec_next_of_inv` and its frame is `commandFrame`. -/
theorem stepCompletes : Obligations.StepCompletes := by
  intro s hs
  cases hp : s.port with
  | nil => exact ⟨s, step_of_empty hp, hp, nofun, fun _ => rfl⟩
  | cons input rest =>
    cases input with
    | reset => exact ⟨_, step_of_reset hp, rfl, nofun, fun _ => rfl⟩
    | command w =>
      have hcommand (P : Prop) : (∀ w' rest', .command w :: rest ≠ HostInput.command w' :: rest') → P :=
        fun h => absurd rfl (h w rest)
      cases hd : decode w with
      | error e => exact ⟨_, step_of_illegal hp hd, rfl, fun _ => ⟨_, rfl⟩, hcommand _⟩
      | ok i =>
        obtain ⟨t, ht⟩ := exec_next_of_inv i (hs.of_engines (t := { s with port := rest }) rfl rfl)
        obtain ⟨-, -, hport, hresp⟩ := commandFrame i _ t ht
        exact ⟨t, (step_of_decode hp hd).trans ht, hport, fun _ => hresp, hcommand _⟩

/-! ### What a response may hold -/

/-- A byte completes at most two symbols, one in each of its nibbles (R126). -/
theorem walk_byte_length {b : Byte} {q cur : BitStr} {out : List Byte}
    (h : walk (byteBits b) q [] = some (out, cur)) : out.length ≤ 2 := by
  have hhalves : byteBits b = (byteBits b).take 4 ++ (byteBits b).drop 4 := rfl
  rw [hhalves, walk_append, Option.bind_eq_some_iff] at h
  obtain ⟨⟨mid, q'⟩, hhigh, hlow⟩ := h
  calc out.length ≤ mid.length + 1 := walk_nibble_length (by simp) hlow
    _ ≤ 2 := Nat.succ_le_succ (walk_nibble_length (by simp) hhigh)

theorem symbolOf_eq_toNat (b : Byte) : symbolOf b = b.toNat :=
  BitVec.toNat_setWidth_of_le (by decide)

/-- ENC_BYTE completes at most 4 bytes: 7 pending bits and a codeword of at most 30 (R27, R21, R104). -/
theorem appendByte_fullBytes_length (b : Byte) (e : Enc) : (appendByte b e).fullBytes.length ≤ 4 := by
  have hsymbol : symbolOf b < 257 := by rw [symbolOf_eq_toNat]; omega
  have hcode := (ctRom_entry (codeword_mem hsymbol)).2.1
  have hpending : e.bits.len ≤ 7 := Nat.le_of_lt_succ e.n.isLt
  rw [BitStr.fullBytes_length, appendByte, BitStr.concat_len, codeword_len]
  omega

/-- ENC_FINISH emits the last partial byte or nothing (R106). -/
theorem padByte_length (e : Enc) : (padByte e).length ≤ 1 := by
  rw [padByte]
  split
  · exact Nat.zero_le 1
  · exact Nat.le_refl 1

/-- The output lists of R86: on which port a command may put bytes, and how many. -/
theorem Answers.out {i : Instr} {s t : State} {r : Response} (h : Answers s i t) (hr : t.responses = s.responses ++ [r]) :
    (r.encOut ≠ [] → i = .encFinish ∨ ∃ b, i = .encByte b) ∧ (r.decOut ≠ [] → ∃ b, i = .decFeed b) ∧
      (r.encOut = [] ∨ r.decOut = []) ∧ r.encOut.length + r.decOut.length ≤ 4 := by
  cases h <;> obtain rfl := List.singleton_inj.mp (List.append_cancel_left hr)
  case encByte b => exact ⟨fun _ => .inr ⟨b, rfl⟩, absurd rfl, .inr rfl, appendByte_fullBytes_length b s.enc⟩
  case encFinish => exact ⟨fun _ => .inl rfl, absurd rfl, .inr rfl, (padByte_length s.enc).trans (by decide)⟩
  case decFed b out cur herr hpl hwalk =>
    exact ⟨absurd rfl, fun _ => ⟨b, rfl⟩, .inl rfl, by simpa using (walk_byte_length hwalk).trans (by decide)⟩
  all_goals exact ⟨absurd rfl, absurd rfl, .inl rfl, Nat.zero_le 4⟩

/-- Only a register's value is a nonzero DATA (R86). -/
theorem Answers.data {i : Instr} {s t : State} {r : Response} (h : Answers s i t)
    (hr : t.responses = s.responses ++ [r]) (hdata : r.data ≠ 0) : r.code = .ok ∧ ∃ j, i = .regRead j := by
  cases h <;> obtain rfl := List.singleton_inj.mp (List.append_cancel_left hr)
  case regRead j v hread => exact ⟨rfl, j, rfl⟩
  all_goals exact absurd rfl hdata

/-- Settles O43: `Answers.out` for the two ports, `Answers.data` for DATA. -/
theorem responseFields : Obligations.ResponseFields := by
  intro i s t r h hr
  have hanswers := answers_of_exec h
  obtain ⟨henc, hdec, hone, hcount⟩ := hanswers.out hr
  exact ⟨henc, hdec, hone, hcount, hanswers.data hr⟩

/-! ### The command text -/

/-- A command's word as a number: RSV is 0, so OP and OPND are its only digits (R81, R89). -/
theorem encode_toNat (i : Instr) :
    (encode i).toNat = 0x1000 * (fieldsOf i).op.toNat + (fieldsOf i).opnd.toNat := by
  have hrsv : (fieldsOf i).rsv.toNat = 0 := congrArg BitVec.toNat (wellFormed_iff.mp (fieldsOf_wellFormed i)).1
  rw [encode, joinFields_toNat]
  omega

theorem encode_eq_or (i : Instr) :
    encode i = ((fieldsOf i).op.zeroExtend 16 <<< 12) ||| (fieldsOf i).opnd.zeroExtend 16 := by
  have hop := (fieldsOf i).op.isLt
  have hopnd := (fieldsOf i).opnd.isLt
  have hop' : ((fieldsOf i).op.zeroExtend 16).toNat = (fieldsOf i).op.toNat :=
    BitVec.toNat_setWidth_of_le (by decide)
  have hopnd' : ((fieldsOf i).opnd.zeroExtend 16).toNat = (fieldsOf i).opnd.toNat :=
    BitVec.toNat_setWidth_of_le (by decide)
  apply BitVec.eq_of_toNat_eq
  rw [encode_toNat, BitVec.toNat_or, BitVec.toNat_shiftLeft, hop', hopnd', Nat.shiftLeft_eq, Nat.mod_eq_of_lt (by omega),
    ← Nat.shiftLeft_eq, ← Nat.shiftLeft_add_eq_or_of_lt (by omega), Nat.shiftLeft_eq, Nat.mul_comm]

theorem encode_eq_ofNat (i : Instr) :
    encode i = BitVec.ofNat 16 (0x1000 * (fieldsOf i).op.toNat + (fieldsOf i).opnd.toNat) := by
  rw [← encode_toNat, BitVec.ofNat_toNat, BitVec.setWidth_eq]

theorem encode_encByte (b : Byte) : encode (.encByte b) = BitVec.ofNat 16 (0x2000 + b.toNat) := encode_eq_ofNat _
theorem encode_decFeed (b : Byte) : encode (.decFeed b) = BitVec.ofNat 16 (0x5000 + b.toNat) := encode_eq_ofNat _
theorem encode_regRead (i : Byte) : encode (.regRead i) = BitVec.ofNat 16 (0x7000 + i.toNat) := encode_eq_ofNat _

theorem asmByteValue_num {n : Nat} (h : n < 256) : asmByteValue (.num n) = .ok (BitVec.ofNat 8 n) := if_pos h
theorem asmRegValue_num {n : Nat} (h : n < 256) : asmRegValue (.num n) = .ok (BitVec.ofNat 8 n) := if_pos h
theorem asmByteValue_num_error {n : Nat} (h : 256 ≤ n) : asmByteValue (.num n) = .error .outOfRange :=
  if_neg (Nat.not_lt.mpr h)
theorem asmRegValue_num_error {n : Nat} (h : 256 ≤ n) : asmRegValue (.num n) = .error .outOfRange :=
  if_neg (Nat.not_lt.mpr h)

/-- Settles O51: the word as `encode_eq_or`, and the three numeric operands by their range checks. -/
theorem assembledWords : Obligations.AssembledWords := by
  refine ⟨encode_eq_or, fun n h => ?_, fun n h => ?_⟩
  · have hn : (BitVec.ofNat 8 n).toNat = n := Nat.mod_eq_of_lt h
    simp [assemble, expand, Except.map, asmByteValue_num h, asmRegValue_num h, encode_encByte, encode_decFeed,
      encode_regRead, hn]
  · simp [assemble, expand, Except.map, asmByteValue_num_error h, asmRegValue_num_error h]

/-- Numbers below 256 are read as their bytes, in order (R90). -/
theorem asmByteValues_nums {ns : List Nat} (h : ∀ n ∈ ns, n < 256) :
    asmByteValues (ns.map .num) = .ok (ns.map (BitVec.ofNat 8)) := by
  induction ns with
  | nil => rfl
  | cons n ns ih =>
    obtain ⟨hn, hns⟩ := List.forall_mem_cons.mp h
    simp [asmByteValues, asmByteValue_num hn, ih hns]

/-- The words of an ENC_BYTE for each byte (R90). -/
theorem encode_encBytes (text : List Byte) :
    (text.map Instr.encByte).map encode = text.map fun b => BitVec.ofNat 16 (0x2000 + b.toNat) := by
  rw [List.map_map]
  exact List.map_congr_left fun b _ => encode_encByte b

/-- The words of a DEC_FEED for each number below 256 (R90). -/
theorem encode_decFeeds {ns : List Nat} (h : ∀ n ∈ ns, n < 256) :
    ((ns.map (BitVec.ofNat 8)).map Instr.decFeed).map encode = ns.map fun n => BitVec.ofNat 16 (0x5000 + n) := by
  rw [List.map_map, List.map_map]
  refine List.map_congr_left fun n hn => (encode_decFeed _).trans ?_
  rw [BitVec.toNat_ofNat, Nat.mod_eq_of_lt (h n hn)]

/-- Settles O52: each expansion is one instruction a byte, for ENCODE and DECODE between its two end commands. -/
theorem pseudoExpansions : Obligations.PseudoExpansions := by
  refine ⟨fun text => ⟨?_, ?_⟩, fun ns h => ⟨?_, ?_⟩⟩
  · rw [assemble, expand, Except.map, encode_encBytes]
  · rw [assemble, expand, Except.map, encodeCall, List.map_cons, List.map_append, encode_encBytes]
    rfl
  · rw [assemble, expand, asmByteValues_nums h, Except.map, Except.map, encode_decFeeds h]
  · rw [assemble, expand, asmByteValues_nums h, Except.map, Except.map, decodeCall, List.map_cons, List.map_append,
      encode_decFeeds h]
    rfl

end Sys2Proof.Machine

namespace Sys2Proof.Machine

/-! ### Full bytes and the bits left over -/

/-- Dropping the second of two strings leaves the first. -/
theorem BitStr.concat_shift {a b : BitStr} (hb : b.val < 2 ^ b.len) : (a.concat b).val >>> b.len = a.val := by
  rw [BitStr.concat_val, Nat.shiftRight_eq_div_pow, Nat.add_comm, Nat.add_mul_div_right _ _ (Nat.two_pow_pos _),
    Nat.div_eq_of_lt hb, Nat.zero_add]

/-- Taking the full bytes off the front of a string changes none of the bits behind them. -/
theorem BitStr.leftover_concat_modEq (a b : BitStr) :
    (a.concat b).val ≡ (a.leftover.concat b).val [MOD 2 ^ (a.len % 8 + b.len)] := by
  rw [BitStr.concat_val, BitStr.concat_val, BitStr.leftover_val, Nat.pow_add]
  exact Nat.ModEq.add_right _ ((Nat.mod_modEq _ _).symm.mul_right' _)

/-- A byte of two numbers that agree on every bit up to it. -/
theorem ofNat_shiftRight_eq_of_modEq {x y m n : Nat} (h : x ≡ y [MOD 2 ^ n]) (hmn : m + 8 ≤ n) :
    BitVec.ofNat 8 (x >>> m) = BitVec.ofNat 8 (y >>> m) := by
  have hlow : x % (2 ^ m * 2 ^ 8) = y % (2 ^ m * 2 ^ 8) := by
    rw [← Nat.pow_add]
    exact h.of_dvd (Nat.pow_dvd_pow 2 hmn)
  apply BitVec.eq_of_toNat_eq
  rw [BitVec.toNat_ofNat, BitVec.toNat_ofNat, Nat.shiftRight_eq_div_pow, Nat.shiftRight_eq_div_pow,
    ← Nat.mod_mul_right_div_self, ← Nat.mod_mul_right_div_self, hlow]

/-- The bytes of two strings: those that the first completes, then those of its leftover and the second (R102). -/
theorem BitStr.fullBytes_concat {a b : BitStr} (hb : b.val < 2 ^ b.len) :
    (a.concat b).fullBytes = a.fullBytes ++ (a.leftover.concat b).fullBytes := by
  have hcount : (a.len + b.len) / 8 = a.len / 8 + (a.len % 8 + b.len) / 8 := by omega
  simp only [BitStr.fullBytes, BitStr.concat_len, BitStr.leftover_len, hcount, List.range_add, List.map_append,
    List.map_map]
  congr 1
  · refine List.map_congr_left fun i hi => ?_
    have hshift : a.len + b.len - 8 * (i + 1) = b.len + (a.len - 8 * (i + 1)) := by
      have := List.mem_range.mp hi
      omega
    rw [hshift, Nat.shiftRight_add, BitStr.concat_shift hb]
  · refine List.map_congr_left fun i hi => ?_
    have hi := List.mem_range.mp hi
    have hshift : a.len + b.len - 8 * (a.len / 8 + i + 1) = a.len % 8 + b.len - 8 * (i + 1) := by omega
    rw [Function.comp_apply, hshift]
    exact ofNat_shiftRight_eq_of_modEq (a.leftover_concat_modEq b) (by omega)

/-- What stays of two strings stays of the first one's leftover and the second (R102). -/
theorem BitStr.leftover_concat (a b : BitStr) : (a.concat b).leftover = (a.leftover.concat b).leftover := by
  have hlen : (a.concat b).len % 8 = (a.leftover.concat b).len % 8 := by
    rw [BitStr.concat_len, BitStr.concat_len, BitStr.leftover_len]
    omega
  refine BitStr.ext_len_val hlen ?_
  rw [BitStr.leftover_val, BitStr.leftover_val, ← hlen]
  refine (a.leftover_concat_modEq b).of_dvd (Nat.pow_dvd_pow 2 ?_)
  rw [BitStr.concat_len]
  omega

theorem bitsOfBytes_snoc (bs : List Byte) (b : Byte) :
    bitsOfBytes (bs ++ [b]) = (bitsOfBytes bs).concat { len := 8, val := b.toNat } := by
  simp [bitsOfBytes]

/-- A string's leading bits, one byte further. -/
theorem BitStr.leading_add_byte {q : BitStr} {k : Nat} (h : k + 8 ≤ q.len) :
    (q.leading k).concat { len := 8, val := (q.val >>> (q.len - (k + 8))) % 2 ^ 8 } = q.leading (k + 8) := by
  have hshift : q.len - k = q.len - (k + 8) + 8 := by omega
  ext
  · rfl
  · rw [BitStr.concat_val, BitStr.leading_val, BitStr.leading_val, hshift, Nat.shiftRight_add,
      Nat.shiftRight_eq_div_pow _ 8, Nat.div_add_mod']

/-- The first `k` bytes of a string hold its first `8 * k` bits (R61, R62). -/
theorem bitsOfBytes_take_fullBytes {q : BitStr} (hq : q.val < 2 ^ q.len) {k : Nat} (hk : 8 * k ≤ q.len) :
    bitsOfBytes ((List.range k).map fun i => BitVec.ofNat 8 (q.val >>> (q.len - 8 * (i + 1)))) = q.leading (8 * k) := by
  induction k with
  | zero =>
    refine BitStr.ext_len_val rfl ?_
    rw [Nat.mul_zero, BitStr.leading_val, Nat.sub_zero, Nat.shiftRight_eq_div_pow, Nat.div_eq_of_lt hq]
    rfl
  | succ k ih =>
    rw [List.range_succ, List.map_append, List.map_singleton, bitsOfBytes_snoc, ih (by omega), BitVec.toNat_ofNat]
    exact BitStr.leading_add_byte hk

/-- A string of whole bytes is the bits of its bytes. -/
theorem bitsOfBytes_fullBytes {q : BitStr} (hq : q.val < 2 ^ q.len) (hlen : q.len % 8 = 0) :
    bitsOfBytes q.fullBytes = q := by
  have hwhole : 8 * (q.len / 8) = q.len := by omega
  rw [BitStr.fullBytes, bitsOfBytes_take_fullBytes hq (by omega), hwhole]
  exact BitStr.ext_len_val rfl (by rw [BitStr.leading_val, Nat.sub_self, Nat.shiftRight_zero])

/-! ### The code bits and their padding -/

theorem symbolOf_lt (b : Byte) : symbolOf b < 257 := by
  rw [symbolOf_eq_toNat]
  omega

/-- A codeword is in range (R21). -/
theorem codeword_inRange {k : Nat} (h : k < 257) : (codeword k).val < 2 ^ (codeword k).len :=
  (ctRom_entry (codeword_mem h)).2.2

@[simp] theorem codeBits_nil : codeBits [] = BitStr.empty := rfl

theorem codeBits_snoc (bs : List Byte) (b : Byte) :
    codeBits (bs ++ [b]) = (codeBits bs).concat (codeword (symbolOf b)) := by
  simp [codeBits]

theorem codeBits_inRange (bs : List Byte) : (codeBits bs).val < 2 ^ (codeBits bs).len := by
  induction bs using List.reverseRecOn with
  | nil => decide
  | append_singleton bs b ih =>
    rw [codeBits_snoc]
    exact BitStr.inRange_concat ih (codeword_inRange (symbolOf_lt b))

/-- The number of code bits, `L` of R109. -/
theorem codeBits_len (bs : List Byte) : (codeBits bs).len = (bs.map fun b => (ct b.toNat).len.toNat).sum := by
  induction bs using List.reverseRecOn with
  | nil => rfl
  | append_singleton bs b ih =>
    rw [codeBits_snoc, BitStr.concat_len, ih, codeword_len, symbolOf_eq_toNat, List.map_append, List.sum_append]
    simp

theorem onesOf_inRange (k : Nat) : (onesOf k).val < 2 ^ (onesOf k).len :=
  Nat.sub_lt (Nat.two_pow_pos k) (by decide)

/-- What leads the EOS codeword is one bits (R26 b). -/
theorem codeword_eos_leading {p : Nat} (h : p ≤ 30) : (codeword 256).leading p = onesOf p := by
  rw [codeword_eos, onesOf_leading h]

/-- The high `p` bits of the EOS code are ones (R106). -/
theorem eos_code_shift {p : Nat} (h : p ≤ 30) : (ct 256).code.toNat >>> (30 - p) = 2 ^ p - 1 := by
  have hval := congrArg BitStr.val (codeword_eos_leading h)
  rwa [BitStr.leading_val, codeword_len, codeword_val, congrArg CodeEntry.len ct_eos] at hval

theorem padCount_le (q : BitStr) : padCount q ≤ 7 := by
  rw [padCount]
  omega

theorem padCount_leftover (q : BitStr) : padCount q.leftover = padCount q := by
  rw [padCount, padCount, BitStr.leftover_len, Nat.mod_mod]

/-- The padding fills the last byte (R101). -/
theorem len_add_padCount (q : BitStr) : (q.len + padCount q) % 8 = 0 := by
  rw [padCount]
  omega

/-- `huff_encode` pads with one bits (R101, R107). -/
theorem huffEncode_eq (s : List Byte) :
    huffEncode s = ((codeBits s).concat (onesOf (padCount (codeBits s)))).fullBytes := by
  have hp := padCount_le (codeBits s)
  rw [huffEncode, Config.eos, codeword_eos_leading (by omega)]

theorem huffEncode_length (s : List Byte) : (huffEncode s).length = ((codeBits s).len + 7) / 8 := by
  rw [huffEncode_eq, BitStr.fullBytes_length, BitStr.concat_len, onesOf_len, padCount]
  omega

/-- The bits of an encoded string are its code bits and the padding (R107). -/
theorem bitsOfBytes_huffEncode (s : List Byte) :
    bitsOfBytes (huffEncode s) = (codeBits s).concat (onesOf (padCount (codeBits s))) := by
  rw [huffEncode_eq]
  exact bitsOfBytes_fullBytes (BitStr.inRange_concat (codeBits_inRange s) (onesOf_inRange _)) (len_add_padCount _)

/-- The padding is no codeword: only EOS is all ones, and it has 30 bits. -/
theorem codeword_ne_onesOf {a p : Nat} (ha : a ≤ 256) (hp : p ≤ 7) : codeword a ≠ onesOf p := by
  intro h
  obtain rfl := eos_of_codeword_ones (Nat.lt_succ_of_le ha) (by omega) h
  have hlen := congrArg BitStr.len h
  rw [codeword_eos, onesOf_len, onesOf_len] at hlen
  omega

/-- Five code bits for each digit zero. -/
theorem codeBits_zeros_len (k : Nat) : (codeBits (List.replicate k 0x30)).len = 5 * k := by
  have hzero : (ct (0x30 : Byte).toNat).len.toNat = 5 := by decide +kernel
  rw [codeBits_len, List.map_replicate, hzero, List.sum_replicate, smul_eq_mul, Nat.mul_comm]

/-! ### The encoder alone -/

/-- What a command puts on ENC_OUT and makes of the encoder's registers, from those registers alone (R69). -/
def encStep : Instr → Enc → List Byte × Enc
  | .encInit, _ => ([], { n := 0, v := 0 })
  | .encByte b, e => ((appendByte b e).fullBytes, encOf (appendByte b e).leftover)
  | .encFinish, e => (padByte e, { n := 0, v := 0 })
  | .nop, e => ([], e)
  | .decInit, e => ([], e)
  | .decFeed _, e => ([], e)
  | .decFinish, e => ([], e)
  | .regRead _, e => ([], e)

/-- The same for a sequence of commands. -/
def encRun : List Instr → Enc → List Byte × Enc
  | [], e => ([], e)
  | i :: is, e => ((encStep i e).1 ++ (encRun is (encStep i e).2).1, (encRun is (encStep i e).2).2)

/-- `encStep` is what a command that answers does to the encoder. -/
theorem Answers.follows_encStep {i : Instr} {s t : State} (h : Answers s i t) :
    ∃ r, t.responses = s.responses ++ [r] ∧ r.encOut = (encStep i s.enc).1 ∧ t.enc = (encStep i s.enc).2 := by
  cases h <;> exact ⟨_, rfl, rfl, rfl⟩

theorem encStep_of_not_encoder {i : Instr} (e : Enc) (h : isEncoder i = false) : encStep i e = ([], e) := by
  cases i with
  | encInit | encByte | encFinish => cases h
  | nop | decInit | decFeed | decFinish | regRead => rfl

/-- The other commands leave no trace in the encoder's run. -/
theorem encRun_filter (is : List Instr) (e : Enc) : encRun (is.filter isEncoder) e = encRun is e := by
  induction is generalizing e with
  | nil => rfl
  | cons i is ih =>
    cases hi : isEncoder i with
    | true => simp [hi, encRun, ih]
    | false => simp [hi, encRun, encStep_of_not_encoder e hi, ih]

/-- The encoder's registers after some bytes of a string: the code bits that fill no byte yet. -/
def encAfter (bs : List Byte) : Enc := encOf (codeBits bs).leftover

theorem encAfter_bits (bs : List Byte) : (encAfter bs).bits = (codeBits bs).leftover := by
  have hlen : (codeBits bs).leftover.len < 8 := Nat.mod_lt _ (by decide)
  exact encOf_bits hlen (lt_of_lt_of_le (BitStr.inRange_leftover _) (Nat.pow_le_pow_right (by decide) (by omega)))

/-- The padded last byte is the one byte, if any, of the pending bits with their padding (R106, R101). -/
theorem padByte_eq_fullBytes (e : Enc) : padByte e = (e.bits.concat (onesOf (padCount e.bits))).fullBytes := by
  have hlen : e.bits.len = e.n.toNat := rfl
  have hval : e.bits.val = e.v.toNat := rfl
  have hn := e.n.isLt
  by_cases h0 : e.n.toNat = 0
  · rw [padByte, if_pos h0, BitStr.fullBytes, BitStr.concat_len, onesOf_len, padCount, hlen, h0]
    rfl
  · have hpad : padCount e.bits = 8 - e.n.toNat := by
      rw [padCount, hlen]
      omega
    have hbyte : (e.bits.concat (onesOf (8 - e.n.toNat))).len = 8 := by
      rw [BitStr.concat_len, onesOf_len, hlen]
      omega
    rw [padByte, if_neg h0, hpad, BitStr.fullBytes, hbyte, Config.eos, eos_code_shift (by omega), BitStr.concat_val,
      hval]
    rfl

/-- One byte more, in code bits: the bytes it completes, and the registers after it (R102). -/
theorem encStep_encByte (bs : List Byte) (b : Byte) :
    (codeBits bs).fullBytes ++ (encStep (.encByte b) (encAfter bs)).1 = (codeBits (bs ++ [b])).fullBytes ∧
      (encStep (.encByte b) (encAfter bs)).2 = encAfter (bs ++ [b]) := by
  have happend : appendByte b (encAfter bs) = (codeBits bs).leftover.concat (codeword (symbolOf b)) := by
    rw [appendByte, encAfter_bits]
  rw [encStep, happend, encAfter, codeBits_snoc, BitStr.leftover_concat (codeBits bs),
    BitStr.fullBytes_concat (a := codeBits bs) (codeword_inRange (symbolOf_lt b))]
  exact ⟨rfl, rfl⟩

/-- ENC_FINISH gives what is missing of `huff_encode` (R106). -/
theorem fullBytes_append_padByte (bs : List Byte) :
    (codeBits bs).fullBytes ++ padByte (encAfter bs) = huffEncode bs := by
  rw [padByte_eq_fullBytes, encAfter_bits, padCount_leftover, huffEncode_eq,
    BitStr.fullBytes_concat (a := codeBits bs) (onesOf_inRange _)]

/-- From the registers after `bs`, the rest of a string and ENC_FINISH give the rest of `huff_encode` (R108). -/
theorem encRun_rest (bs more : List Byte) :
    ∃ out, encRun (more.map Instr.encByte ++ [.encFinish]) (encAfter bs) = (out, { n := 0, v := 0 }) ∧
      (codeBits bs).fullBytes ++ out = huffEncode (bs ++ more) := by
  induction more generalizing bs with
  | nil => exact ⟨_, rfl, by simpa [encStep, encRun] using fullBytes_append_padByte bs⟩
  | cons b more ih =>
    obtain ⟨hout, henc⟩ := encStep_encByte bs b
    obtain ⟨out, hrun, hrest⟩ := ih (bs ++ [b])
    refine ⟨(encStep (.encByte b) (encAfter bs)).1 ++ out, ?_, ?_⟩
    · rw [List.map_cons, List.cons_append, encRun, henc, hrun]
    · rw [← List.append_assoc, hout, hrest, List.append_assoc, List.singleton_append]

/-- The encoder's call, from any registers (R108). -/
theorem encRun_encodeCall (bs : List Byte) (e : Enc) :
    encRun (encodeCall bs) e = (huffEncode bs, { n := 0, v := 0 }) := by
  obtain ⟨out, hrun, hout⟩ := encRun_rest [] bs
  have hcall : encRun (encodeCall bs) e = encRun (bs.map Instr.encByte ++ [.encFinish]) (encAfter []) := rfl
  rw [hcall, hrun, ← List.nil_append bs, ← hout]
  rfl

/-! ### Command sequences -/

/-- One step of a run that does not stop. -/
theorem run_succ_of_next {M : Host.Core} {s t : M.State} (k : Nat) (h : M.step s = .next t) :
    M.run (k + 1) s = M.run k t := by
  rw [Host.Core.run, h]

/-- One command of a run: its word leaves the port, and the run goes on from its next state. -/
theorem run_cons {s t : State} {i : Instr} {rest : List HostInput} (k : Nat) (hp : s.port = .command (encode i) :: rest)
    (h : exec i { s with port := rest } = .next t) : Host.Core.run core (k + 1) s = Host.Core.run core k t :=
  run_succ_of_next (M := core) k ((step_of_decode hp (decode_encode i)).trans h)

/-- Under R28 alone every command answers: only the decoder can stop the block (X16). -/
theorem exec_next_of_decOk {s : State} (i : Instr) (hd : decOk s.dec = true) : ∃ t, exec i s = .next t := by
  rcases exec_next_or_stuck i s with hnext | ⟨⟨b, rfl⟩, hstuck⟩
  · exact hnext
  · have hpl := (decOk_bounds hd).1
    have := ((stuckExactly.1 b s).mp hstuck).2
    omega

/-- The decoder's part of the invariant needs no other part (R28, R125). -/
theorem Answers.keeps_decOk {i : Instr} {s t : State} (h : Answers s i t)
    (hd : decOk s.dec = true) : decOk t.dec = true := by
  cases h with
  | nop | encInit | encByte | encFinish | decSticky | regRead | regReserved => exact hd
  | decInit | decFinish => exact decOk_clear false
  | decFails => exact decOk_clear true
  | decFed b out cur herr hpl hwalk =>
    rw [replyDec_dec, setDecBits_dec, herr]
    exact decOk_decOf (walk_byte_node hwalk)

/-- A run of any commands is the encoder's run on ENC_OUT and in the encoder's registers (R69). -/
theorem run_encoder {is : List Instr} {s : State} {rest : List HostInput} (hd : decOk s.dec = true)
    (hp : s.port = inputsOf is ++ rest) :
    ∃ t rs, Host.Core.run core is.length s = .next t ∧ t.responses = s.responses ++ rs ∧ rs.length = is.length ∧
      encOutBytes rs = (encRun is s.enc).1 ∧ t.enc = (encRun is s.enc).2 ∧ t.port = rest := by
  induction is generalizing s with
  | nil => exact ⟨s, [], rfl, (List.append_nil _).symm, rfl, rfl, rfl, hp⟩
  | cons i is ih =>
    obtain ⟨u, hu⟩ := exec_next_of_decOk (s := { s with port := inputsOf is ++ rest }) i hd
    have hanswers := answers_of_exec hu
    obtain ⟨r, hresp, hout, henc⟩ := hanswers.follows_encStep
    obtain ⟨-, -, hkept, -⟩ := commandFrame i _ u hu
    obtain ⟨t, rs, hrun, hresps, hlen, houts, hencs, hport⟩ := ih (hanswers.keeps_decOk hd) hkept
    refine ⟨t, r :: rs, (run_cons is.length hp hu).trans hrun, ?_, congrArg Nat.succ hlen, ?_, ?_, hport⟩
    · rw [hresps, hresp, List.append_assoc, List.singleton_append]
    · rw [encOutBytes, List.flatMap_cons, hout, ← encOutBytes, houts, henc]
      rfl
    · rw [hencs, henc]
      rfl

/-- Settles O25: a run is the encoder's run (`run_encoder`), which sees the encoder's commands alone and gives
`huff_encode`. -/
theorem encodeSequenceLaw : Obligations.EncodeSequenceLaw := by
  intro s bytes is rest hd hfilter hp
  obtain ⟨t, rs, hrun, hresps, hlen, hout, henc, hport⟩ := run_encoder hd hp
  have hcall : encRun is s.enc = (huffEncode bytes, { n := 0, v := 0 }) := by
    rw [← encRun_filter, hfilter, encRun_encodeCall]
  exact ⟨t, rs, hrun, hresps, hlen, by rw [hout, hcall], by rw [henc, hcall], hport⟩

/-! ### The encoder's commands, one by one -/

/-- The bytes of R102's loop, which counts them from 1. -/
theorem BitStr.fullBytes_eq_range' (q : BitStr) :
    q.fullBytes = (List.range' 1 (q.len / 8)).map fun i => BitVec.ofNat 8 (q.val / 2 ^ (q.len - 8 * i) % 2 ^ 8) := by
  rw [List.range'_eq_map_range, List.map_map, BitStr.fullBytes]
  refine List.map_congr_left fun i _ => BitVec.eq_of_toNat_eq ?_
  simp only [Function.comp_apply, BitVec.toNat_ofNat, Nat.mod_mod, Nat.shiftRight_eq_div_pow, Nat.add_comm 1 i]

/-- The string that ENC_BYTE cuts into bytes: `n` and `acc` of R102. -/
theorem appendByte_eq (b : Byte) (e : Enc) :
    appendByte b e = { len := e.n.toNat + (ct b.toNat).len.toNat,
                       val := e.v.toNat * 2 ^ (ct b.toNat).len.toNat + (ct b.toNat).code.toNat } := by
  rw [appendByte, symbolOf_eq_toNat]
  rfl

/-- A byte's code has 5 to 30 bits and is in range (R21). -/
theorem ct_byte_range (b : Byte) :
    5 ≤ (ct b.toNat).len.toNat ∧ (ct b.toNat).len.toNat ≤ 30 ∧
      (ct b.toNat).code.toNat < 2 ^ (ct b.toNat).len.toNat :=
  ctRom_entry (codeword_mem (by omega))

/-- At most 7 pending bits and a code of at most 30 make a number below 2^37 (R102). -/
theorem appendByte_val_lt (b : Byte) {e : Enc} (h : encOk e = true) : (appendByte b e).val < 2 ^ 37 := by
  have hn := e.n.isLt
  have hl := (ct_byte_range b).2.1
  have hrange := BitStr.inRange_concat ((BitStr.inRange_iff _).mp h) (codeword_inRange (symbolOf_lt b))
  have hlen : (appendByte b e).len ≤ 37 := by
    rw [appendByte_eq]
    dsimp only
    omega
  exact lt_of_lt_of_le hrange (Nat.pow_le_pow_right (by decide) hlen)

/-- Settles O22: the model's bytes are those of R102's loop, on `appendByte_eq`; the bounds are the table's. -/
theorem encByteResult : Obligations.EncByteResult := by
  rintro b s c l acc n rfl rfl rfl rfl
  have hn := s.enc.n.isLt
  obtain ⟨h5, h30, -⟩ := ct_byte_range b
  refine ⟨encode_eq_or (.encByte b), ?_, h5, h30, by omega, by omega, fun henc => ?_⟩
  · rw [exec_encByte, replyEnc_eq_answered, BitStr.fullBytes_eq_range', appendByte_eq]
    rfl
  · have hacc := appendByte_val_lt b henc
    rwa [appendByte_eq] at hacc

/-- The three bytes with the longest code. -/
theorem ct_len_longest {b : Byte} (h : b ∈ [10#8, 13#8, 22#8]) : (ct b.toNat).len.toNat = 30 := by
  simp only [List.mem_cons, List.not_mem_nil, or_false] at h
  rcases h with rfl | rfl | rfl <;> decide +kernel

/-- Settles O23: the count is the length of `fullBytes`, and the bounds are `appendByte_fullBytes_length` and
`padByte_length`. -/
theorem encOutputBound : Obligations.EncOutputBound := by
  refine ⟨fun b s => ?_, fun s => ⟨_, exec_encFinish s, padByte_length s.enc⟩⟩
  have hcount : (appendByte b s.enc).fullBytes.length = (s.enc.n.toNat + (ct b.toNat).len.toNat) / 8 := by
    rw [BitStr.fullBytes_length, appendByte_eq]
  refine ⟨_, _, exec_encByte b s, hcount, appendByte_fullBytes_length b s.enc, Nat.le_of_lt_succ (BitVec.isLt _),
    fun hn hb => ?_⟩
  rw [hcount, hn, ct_len_longest hb]

/-- Settles O26: the length is the code bits' count, rounded up to whole bytes. -/
theorem encodedLength : Obligations.EncodedLength := by
  refine ⟨fun s => ?_, rfl⟩
  rw [huffEncode_length, ← codeBits_len]
  exact ⟨rfl, by omega, fun m hm => by omega⟩

/-- Settles O27: the padding is `padCount` one bits; `3 * p` digits zero have `15 * p` code bits and need `p` more. -/
theorem paddingLaw : Obligations.PaddingLaw := by
  refine ⟨fun s => ?_, fun p hp => ⟨List.replicate (3 * p) 0x30, ?_⟩⟩
  · have hp := padCount_le (codeBits s)
    exact ⟨padCount (codeBits s), hp, bitsOfBytes_huffEncode s, codeword_eos_leading (by omega),
      fun a ha => codeword_ne_onesOf ha hp⟩
  · have hpad : padCount (codeBits (List.replicate (3 * p) 0x30)) = p := by
      rw [padCount, codeBits_zeros_len]
      omega
    rw [bitsOfBytes_huffEncode, hpad]
    rfl

/-- A command without operand has its opcode and zeros (R81, R83). -/
theorem fieldsOf_of_no_operand {i : Instr} (h : (fieldsOf i).takesOperand = false) :
    fieldsOf i = { op := (fieldsOf i).op, rsv := 0, opnd := 0 } := by
  cases i with
  | encByte | decFeed | regRead => cases h
  | nop | encInit | encFinish | decInit | decFinish => rfl

/-- A word with the opcode of a command without operand is that command's word or ILLEGAL (R83, R84). -/
theorem decode_error_of_op {w : Command} {i : Instr} (hop : w.extractLsb' 12 4 = (fieldsOf i).op)
    (hi : (fieldsOf i).takesOperand = false) (hw : w ≠ encode i) : ∃ e, decode w = .error e := by
  cases hd : decode w with
  | error e => exact ⟨e, rfl⟩
  | ok j =>
    have hsame : (fieldsOf j).op = (fieldsOf i).op := by rw [fieldsOf_of_decode hd, ← hop]; rfl
    have hj : (fieldsOf j).takesOperand = false := by rwa [Fields.takesOperand, hsame]
    have hfields : fieldsOf j = fieldsOf i := by
      rw [fieldsOf_of_no_operand hj, fieldsOf_of_no_operand hi, hsame]
    exact absurd (by rw [← encode_of_decode hd, encode, hfields, encode]) hw

/-- ENC_STATUS reads 0 with no pending bits (R32). -/
theorem exec_regRead_encStatus_clear {s : State} (h : s.enc = { n := 0, v := 0 }) :
    exec (.regRead 1) s = .next (answered .ok 0 [] [] s) := by
  refine exec_regRead_value.mpr ((readRegister_encStatus s).trans ?_)
  rw [regEncStatus, h]
  rfl

/-- Settles O21: the clear registers, and the stray words by `decode_error_of_op`. -/
theorem encInitResult : Obligations.EncInitResult := by
  refine ⟨rfl, exec_encInit, fun s t h => ?_, fun s w rest hp hop hw => ?_⟩
  · cases h
    exact exec_regRead_encStatus_clear rfl
  · obtain ⟨e, he⟩ := decode_error_of_op (i := .encInit) hop rfl hw
    exact step_of_illegal hp he

/-- Settles O24: the two branches of the padded byte, whose pad is `eos_code_shift`. -/
theorem encFinishResult : Obligations.EncFinishResult := by
  refine ⟨rfl, fun s h0 => ?_, fun s h0 => ?_, fun p _ hp => ?_, fun s t h => ?_⟩
  · rw [exec_encFinish, padByte, if_pos h0]
    rfl
  · rw [exec_encFinish, padByte, if_neg h0, Config.eos, eos_code_shift (by omega)]
    rfl
  · rw [← Nat.shiftRight_eq_div_pow, eos_code_shift (by omega)]
  · cases h
    exact exec_regRead_encStatus_clear rfl

end Sys2Proof.Machine

namespace Sys2Proof.Machine

/-! ### The two forms of DEC_FEED -/

/-- A byte's bits are those of its two nibbles (R127). -/
theorem byteBits_eq_nibbleBits (b : Byte) : byteBits b = (byteNibbles b).flatMap nibbleBits := by
  simp [byteBits, byteNibbles, nibbleBits]

/-- The walk that defines DA is the decoder's walk, of whose symbols it keeps the last (R40). -/
theorem nibbleWalk_eq_walk (bs : List Bool) (q : BitStr) (sym : Option Byte) :
    nibbleWalk bs q sym = (walk bs q []).map fun r => (r.1.getLast?.or sym, r.2) := by
  induction bs generalizing q sym with
  | nil => rfl
  | cons b bs ih =>
    rw [nibbleWalk_cons, walk_cons]
    cases dstep q b with
    | fail => rfl
    | sym a n =>
      dsimp only
      rw [ih, walk_out bs n ([] ++ [a]), Option.map_map]
      simp [Function.comp_def, List.getLast?_cons, Option.or_some]
    | mid n => exact ih n sym

/-- A nibble that fails in the walk fails in the ROM (R127). -/
theorem nibbleFeed_of_walk_none {nib : BitVec 4} {i : BitVec 8} (nibs : List (BitVec 4)) (out : List Byte)
    (h : walk (nibbleBits nib) (nodeOf i) [] = none) : nibbleFeed (nib :: nibs) i out = none := by
  have hfail : (da i nib).fail = true := by
    rw [da_eq_daEntry, daEntry_fail_iff, nibbleWalk_eq_walk, h]
    rfl
  rw [nibbleFeed, if_pos hfail]

/-- A nibble that walks emits in the ROM what the walk emits, at most one symbol, and the next id names the walk's end
(R42 a, R127). -/
theorem nibbleFeed_of_walk_some {nib : BitVec 4} {i : BitVec 8} {syms : List Byte} {cur : BitStr}
    (nibs : List (BitVec 4)) (out : List Byte) (h : walk (nibbleBits nib) (nodeOf i) [] = some (syms, cur)) :
    ∃ j, nodeOf j = cur ∧ nibbleFeed (nib :: nibs) i out = nibbleFeed nibs j (out ++ syms) := by
  have hentry : da i nib = _ := (da_eq_daEntry i nib).trans (daEntry_of_some (by rw [nibbleWalk_eq_walk, h]; rfl))
  obtain ⟨k, -, hid, hnode⟩ := exists_nodeId (walk_node (isNode_nodeOf i) h)
  refine ⟨BitVec.ofNat 8 k, hnode, ?_⟩
  have hone : syms.length ≤ 1 := walk_nibble_length (by simp) h
  rw [nibbleFeed, hentry, hid]
  match syms, hone with
  | [], _ => simp
  | [a], _ => simp

/-- The loop over nibbles is the walk over their bits, on the nodes that the ids name (R127). -/
theorem nibbleFeed_eq_walk (nibs : List (BitVec 4)) (i : BitVec 8) (out : List Byte) :
    (nibbleFeed nibs i out).map (fun r => (r.1, nodeOf r.2)) = walk (nibs.flatMap nibbleBits) (nodeOf i) out := by
  induction nibs generalizing i out with
  | nil => rfl
  | cons nib nibs ih =>
    rw [List.flatMap_cons, walk_append, walk_out]
    cases h : walk (nibbleBits nib) (nodeOf i) [] with
    | none =>
      rw [nibbleFeed_of_walk_none nibs out h]
      rfl
    | some r =>
      obtain ⟨j, hj, hfeed⟩ := nibbleFeed_of_walk_some nibs out h
      rw [hfeed, ih, hj]
      rfl

/-- A byte from a string that is no node fails at its first bit. -/
theorem walk_byte_of_not_node {q : BitStr} (b : Byte) (h : isNode q = false) : walk (byteBits b) q [] = none := by
  rw [byteBits, walk_cons, dstep_of_not_node _ h]

/-- The two forms take a byte alike, from a node by the ROM and from any other string by the failure both give (R127). -/
theorem nibbleForm_eq_walk (b : Byte) (q : BitStr) : nibbleForm b q = walk (byteBits b) q [] := by
  rw [nibbleForm]
  cases hq : isNode q with
  | false => rw [nodeId_eq_none.mpr hq, walk_byte_of_not_node b hq]
  | true =>
    obtain ⟨k, -, hid, hnode⟩ := exists_nodeId hq
    rw [hid, byteBits_eq_nibbleBits, ← hnode]
    exact nibbleFeed_eq_walk _ _ _

/-- Settles O36: the nibble form is the bit-serial walk (`nibbleForm_eq_walk`), and nothing else of DEC_FEED reads the
stride. -/
theorem nibbleFormEqualsBitForm : Obligations.NibbleFormEqualsBitForm := by
  intro b s
  rw [decFeedWith, decFeedWith, consumeByte, consumeByte, nibbleForm_eq_walk]

end Sys2Proof.Machine

namespace Sys2Proof.Machine

/-! ### The bits of a byte string -/

/-- The bits of a byte spell its number (R11, R61). -/
theorem ofBits_byteBits (b : Byte) : ofBits (byteBits b) = { len := 8, val := b.toNat } := by
  revert b
  decide +kernel

/-- The bits of a byte string, as a list and as a string. -/
theorem ofBits_flatMap_byteBits (x : List Byte) : ofBits (x.flatMap byteBits) = bitsOfBytes x := by
  induction x using List.reverseRecOn with
  | nil => rfl
  | append_singleton x b ih =>
    rw [List.flatMap_append, List.flatMap_singleton, ofBits_append, ih, ofBits_byteBits, bitsOfBytes_snoc]

theorem ofBits_inj {as bs : List Bool} : ofBits as = ofBits bs ↔ as = bs := ⟨ofBits_injective, congrArg ofBits⟩

theorem bitsOfBytes_len (x : List Byte) : (bitsOfBytes x).len = 8 * x.length := by
  induction x using List.reverseRecOn with
  | nil => rfl
  | append_singleton x b ih =>
    rw [bitsOfBytes_snoc, BitStr.concat_len, ih, List.length_append, List.length_singleton, Nat.mul_add]

/-- The bytes of a byte string's bits are the string. -/
theorem fullBytes_bitsOfBytes (x : List Byte) : (bitsOfBytes x).fullBytes = x := by
  induction x using List.reverseRecOn with
  | nil => rfl
  | append_singleton x b ih =>
    have hwhole : (bitsOfBytes x).leftover = BitStr.empty := by
      ext <;> simp [bitsOfBytes_len, Nat.mod_one]
    have hbyte : (BitStr.mk 8 b.toNat).fullBytes = [b] := by simp [BitStr.fullBytes]
    rw [bitsOfBytes_snoc, BitStr.fullBytes_concat b.isLt, ih, hwhole, BitStr.empty_concat, hbyte]

/-! ### What the walk reads -/

/-- The search finds every symbol by its codeword (R40). -/
theorem findSymbol_codeword {k : Nat} (h : k < 257) : findSymbol (codeword k) = some k := by
  obtain ⟨bs, hcode, hleaf⟩ := leaf_of_codeword h
  rw [hcode]
  exact findSymbol_ofBits.mpr hleaf

/-- The bit that ends a symbol's codeword completes the symbol (R40). -/
theorem dstep_of_codeword {q : BitStr} {b : Bool} {a : Byte} (h : q.push b = codeword (symbolOf a)) :
    dstep q b = .sym a BitStr.empty := by
  have hne : symbolOf a ≠ Config.eos := by
    rw [symbolOf_eq_toNat, Config.eos]
    omega
  have ha : BitVec.ofNat 8 (symbolOf a) = a := by rw [symbolOf_eq_toNat, BitVec.ofNat_toNat, BitVec.setWidth_eq]
  simp only [dstep, h, findSymbol_codeword (symbolOf_lt a), if_neg hne, ha]

/-- A bit that leads to a node completes nothing (R40). -/
theorem dstep_of_node {q : BitStr} {b : Bool} (h : isNode (q.push b) = true) : dstep q b = .mid (q.push b) := by
  have hnone : findSymbol (q.push b) = none := by
    cases hfind : findSymbol (q.push b) with
    | none => rfl
    | some k => rw [isNode_eq_false_of_findSymbol hfind] at h; cases h
  simp only [dstep, hnone, h, if_true]

/-- A list's first bit, pushed onto the string before it. -/
theorem BitStr.concat_ofBits_cons (q : BitStr) (b : Bool) (bs : List Bool) :
    q.concat (ofBits (b :: bs)) = (q.push b).concat (ofBits bs) := by
  have hbit : q.concat (ofBits [b]) = q.push b := by
    ext <;> simp [ofBits, Nat.mul_comm]
  rw [← hbit, BitStr.concat_assoc, ← ofBits_append, List.singleton_append]

/-- What a walk consumed is what it emitted, in code bits, and what is pending (R121, R124). -/
theorem concat_ofBits_of_walk {bs : List Bool} {q cur : BitStr} {out out' : List Byte}
    (h : walk bs q out = some (out', cur)) :
    (codeBits out).concat (q.concat (ofBits bs)) = (codeBits out').concat cur := by
  induction bs generalizing q out with
  | nil =>
    cases h
    rw [ofBits_nil, BitStr.concat_empty]
  | cons b bs ih =>
    rw [walk_cons] at h
    rw [BitStr.concat_ofBits_cons]
    cases hd : dstep q b with
    | fail => rw [hd] at h; cases h
    | sym a n =>
      obtain ⟨k, hfind, hk, rfl, rfl⟩ := dstep_sym hd
      have hcode : codeword (symbolOf (BitVec.ofNat 8 k)) = q.push b := by
        rw [symbolOf_eq_toNat, BitVec.toNat_ofNat, Nat.mod_eq_of_lt hk, (findSymbol_some hfind).2]
      rw [hd] at h
      rw [← ih h, codeBits_snoc, hcode, BitStr.empty_concat, BitStr.concat_assoc]
    | mid n =>
      obtain ⟨-, -, rfl⟩ := dstep_mid hd
      rw [hd] at h
      exact ih h

/-- What a codeword extends by one bit or more is a node (R38). -/
theorem isNode_of_concat {q r : BitStr} {k : Nat} (hk : k < 257) (hr : r.val < 2 ^ r.len) (hpos : 0 < r.len)
    (h : q.concat r = codeword k) : isNode q = true := by
  refine isNode_iff.mpr ⟨k, hk, ?_, ?_⟩
  · rw [← h, BitStr.concat_len]
    omega
  · refine BitStr.ext_len_val rfl ?_
    rw [← h, BitStr.leading_val, BitStr.concat_len, Nat.add_sub_cancel_left, BitStr.concat_shift hr]

/-- The bits that are missing of a symbol's codeword complete it (R40). -/
theorem walk_of_codeword {bs : List Bool} {q : BitStr} {a : Byte} (out : List Byte) (hbs : bs ≠ [])
    (h : q.concat (ofBits bs) = codeword (symbolOf a)) : walk bs q out = some (out ++ [a], BitStr.empty) := by
  induction bs generalizing q with
  | nil => exact absurd rfl hbs
  | cons b bs ih =>
    rw [BitStr.concat_ofBits_cons] at h
    rw [walk_cons]
    cases bs with
    | nil =>
      rw [ofBits_nil, BitStr.concat_empty] at h
      rw [dstep_of_codeword h]
      rfl
    | cons c bs =>
      have hnode : isNode (q.push b) = true :=
        isNode_of_concat (symbolOf_lt a) (by simpa using ofBits_inRange (c :: bs)) (by simp) h
      rw [dstep_of_node hnode]
      exact ih (List.cons_ne_nil _ _) h

/-- The code bits of a string walk from the root back to it, and emit the string (R134). -/
theorem walk_of_codeBits {s : List Byte} {bs : List Bool} (h : ofBits bs = codeBits s) :
    walk bs BitStr.empty [] = some (s, BitStr.empty) := by
  induction s using List.reverseRecOn generalizing bs with
  | nil =>
    obtain rfl : bs = [] := ofBits_injective h
    rfl
  | append_singleton s b ih =>
    obtain ⟨cs, hcs⟩ := exists_ofBits (codeBits_inRange s)
    obtain ⟨ds, hds⟩ := exists_ofBits (codeword_inRange (symbolOf_lt b))
    obtain rfl : bs = cs ++ ds := by
      apply ofBits_injective
      rw [h, codeBits_snoc, ofBits_append, hcs, hds]
    have hne : ds ≠ [] := by
      rintro rfl
      have := five_le_of_findSymbol (hds ▸ findSymbol_codeword (symbolOf_lt b))
      exact absurd this (by decide)
    rw [walk_append, ih hcs]
    exact walk_of_codeword s hne (by rw [BitStr.empty_concat, hds])

/-! ### The padding at the end -/

theorem ofBits_replicate_true (p : Nat) : ofBits (List.replicate p true) = onesOf p := by
  induction p with
  | zero => rfl
  | succ p ih => rw [List.replicate_succ', ofBits_snoc, ih, onesOf_push]

/-- One bits from the root complete nothing before EOS: they stay pending (R107). -/
theorem walk_ones {p : Nat} (hp : p ≤ 29) (out : List Byte) :
    walk (List.replicate p true) BitStr.empty out = some (out, onesOf p) := by
  induction p with
  | zero => rfl
  | succ p ih =>
    rw [List.replicate_succ', walk_append, ih (by omega), Option.bind_some, walk_cons, dstep_of_node]
    · rw [onesOf_push]
      rfl
    · rw [onesOf_push]
      exact isNode_onesOf hp

/-- R36's test, in numbers: no pending bits, or at most 7 one bits. -/
theorem accepting_iff {q : BitStr} : accepting q = true ↔ q.len = 0 ∨ q.len ≤ 7 ∧ q.val = 2 ^ q.len - 1 := by
  have htail : (1 ≤ q.len ∧ q.len ≤ 7 ∧ q.val = (ct 256).code.toNat >>> (30 - q.len)) ↔
      (1 ≤ q.len ∧ q.len ≤ 7 ∧ q.val = 2 ^ q.len - 1) :=
    and_congr_right fun _ => and_congr_right fun h7 => by rw [eos_code_shift (by omega)]
  simp only [accepting, Bool.or_eq_true, Bool.and_eq_true, beq_iff_eq, decide_eq_true_eq, and_assoc]
  rw [Config.padMax, Config.eos, htail]
  constructor
  · rintro (h0 | ⟨-, h⟩)
    · exact Or.inl h0
    · exact Or.inr h
  · rintro (h0 | h)
    · exact Or.inl h0
    · exact (Nat.eq_zero_or_pos q.len).imp_right fun hpos => ⟨hpos, h⟩

theorem accepting_onesOf {p : Nat} (hp : p ≤ 7) : accepting (onesOf p) = true :=
  accepting_iff.mpr (Or.inr ⟨hp, rfl⟩)

/-- A node at which a stream may end is at most 7 one bits (R36). -/
theorem eq_onesOf_of_accepting {q : BitStr} (hq : isNode q = true) (h : accepting q = true) :
    q.len ≤ 7 ∧ q = onesOf q.len := by
  rcases accepting_iff.mp h with h0 | ⟨h7, hval⟩
  · have hval := (isNode_bounds hq).2
    rw [h0] at hval
    exact ⟨by omega, BitStr.ext_len_val rfl (by rw [onesOf_val, h0]; omega)⟩
  · exact ⟨h7, BitStr.ext_len_val rfl hval⟩

/-! ### The string contracts, one against the other -/

/-- The input is accepted exactly when the walk ends where a stream may end (R121). -/
theorem huffDecode_eq_ok {x out : List Byte} : huffDecode x = .ok out ↔
    ∃ cur, walk (x.flatMap byteBits) BitStr.empty [] = some (out, cur) ∧ accepting cur = true := by
  rw [huffDecode]
  cases walk (x.flatMap byteBits) BitStr.empty [] with
  | none => simp
  | some r => cases hacc : accepting r.2 <;> simp [hacc, Prod.ext_iff]

theorem huffDecode_eq_malformed {x : List Byte} : huffDecode x = .malformed ↔
    walk (x.flatMap byteBits) BitStr.empty [] = none := by
  rw [huffDecode]
  cases walk (x.flatMap byteBits) BitStr.empty [] with
  | none => simp
  | some r => cases hacc : accepting r.2 <;> simp [hacc]

theorem huffDecode_eq_truncated {x : List Byte} : huffDecode x = .truncated ↔
    ∃ out cur, walk (x.flatMap byteBits) BitStr.empty [] = some (out, cur) ∧ accepting cur = false := by
  rw [huffDecode]
  cases walk (x.flatMap byteBits) BitStr.empty [] with
  | none => simp
  | some r => cases hacc : accepting r.2 <;> simp [hacc, Prod.ext_iff]

/-- Settles O38: the code bits walk to the string, and the padding stays pending, where a stream may end. -/
theorem roundTrip : Obligations.RoundTrip := by
  intro s
  have hp := padCount_le (codeBits s)
  obtain ⟨cs, hcs⟩ := exists_ofBits (codeBits_inRange s)
  have hbits : (huffEncode s).flatMap byteBits = cs ++ List.replicate (padCount (codeBits s)) true := by
    apply ofBits_injective
    rw [ofBits_flatMap_byteBits, bitsOfBytes_huffEncode, ofBits_append, hcs, ofBits_replicate_true]
  refine huffDecode_eq_ok.mpr ⟨onesOf (padCount (codeBits s)), ?_, accepting_onesOf hp⟩
  rw [hbits, walk_append, walk_of_codeBits hcs, Option.bind_some, walk_ones (by omega)]

/-- What an accepted input is made of: the code bits of the result, and at most 7 one bits (R121, R36). -/
theorem bitsOfBytes_of_huffDecode_ok {x out : List Byte} (h : huffDecode x = .ok out) :
    ∃ p ≤ 7, bitsOfBytes x = (codeBits out).concat (onesOf p) := by
  obtain ⟨cur, hwalk, hacc⟩ := huffDecode_eq_ok.mp h
  obtain ⟨h7, hones⟩ := eq_onesOf_of_accepting (walk_node isNode_root hwalk) hacc
  have hbits := concat_ofBits_of_walk hwalk
  rw [codeBits_nil, BitStr.empty_concat, BitStr.empty_concat, ofBits_flatMap_byteBits] at hbits
  exact ⟨cur.len, h7, by rw [hbits, ← hones]⟩

/-- Settles O39: an accepted input is code bits and fewer than 8 ones, whose number whole bytes fix; the other way is the
round trip. -/
theorem decoderExactness : Obligations.DecoderExactness := by
  intro x out
  refine ⟨fun h => ?_, fun h => h ▸ roundTrip out⟩
  obtain ⟨p, hp, hbits⟩ := bitsOfBytes_of_huffDecode_ok h
  have hpad : p = padCount (codeBits out) := by
    have hlen := congrArg BitStr.len hbits
    rw [bitsOfBytes_len, BitStr.concat_len, onesOf_len] at hlen
    rw [padCount]
    omega
  rw [huffEncode_eq, ← hpad, ← hbits, fullBytes_bitsOfBytes]

end Sys2Proof.Machine

namespace Sys2Proof.Machine

/-! ### When a DEC_FEED fails -/

theorem foldl_feedTurn_none (b : Byte) (ks : List Nat) : ks.foldl (feedTurn b) none = none := by
  induction ks with
  | nil => rfl
  | cons k ks ih => exact ih

/-- The loop of R124 is the walk, over the bits that its turns take. -/
theorem foldl_feedTurn_eq_walk (b : Byte) (ks : List Nat) (q : BitStr) (out : List Byte) :
    ks.foldl (feedTurn b) (some (out, q)) = walk (ks.map b.getLsbD) q out := by
  induction ks generalizing q out with
  | nil => rfl
  | cons k ks ih =>
    rw [List.foldl_cons, List.map_cons, walk_cons, feedTurn, Option.bind_some]
    cases dstep q (b.getLsbD k) with
    | fail => exact foldl_feedTurn_none b ks
    | sym a n => exact ih n (out ++ [a])
    | mid n => exact ih n out

theorem feedLoop_eq_walk (b : Byte) (d : Dec) : feedLoop b d = walk (byteBits b) d.bits [] :=
  foldl_feedTurn_eq_walk b [7, 6, 5, 4, 3, 2, 1, 0] d.bits []

/-- A byte starts with `j` one bits exactly when its top `j` bits are the number of `j` ones. -/
theorem byteBits_ones {j : Nat} (hj : j ≤ 8) (b : Byte) :
    List.replicate j true <+: byteBits b ↔ b.toNat / 2 ^ (8 - j) = 2 ^ j - 1 := by
  have hlead : ofBits ((byteBits b).take j) = { len := j, val := b.toNat / 2 ^ (8 - j) } := by
    rw [← leading_ofBits_take hj, ofBits_byteBits, BitStr.leading, Nat.shiftRight_eq_div_pow]
  rw [List.prefix_iff_eq_take, List.length_replicate, ← ofBits_inj, hlead, ofBits_replicate_true, onesOf,
    BitStr.mk.injEq, eq_comm (a := 2 ^ j - 1)]
  exact and_iff_right rfl

/-- From a node a byte fails exactly when EOS completes in it. -/
theorem walk_byte_eq_none {b : Byte} {q : BitStr} (hq : isNode q = true) :
    walk (byteBits b) q [] = none ↔ CompletesEos q (byteBits b) := by
  rw [← nibbleWalk_eq_none (sym := none) hq (by simp), nibbleWalk_eq_walk, Option.map_eq_none_iff]

/-- EOS completes in a byte only after 22 bits or more. -/
theorem len_of_completesEos_byte {b : Byte} {q : BitStr} (h : CompletesEos q (byteBits b)) : 22 ≤ q.len := by
  obtain ⟨l, rfl, hones⟩ := h
  have hcount := hones.length_le
  rw [List.length_replicate, byteBits_length] at hcount
  rw [onesOf_len]
  omega

/-- The test of R161 (a) on the registers is the completion of EOS. -/
theorem completesEos_iff {b : Byte} {d : Dec} (hpl : d.pl.toNat ≤ 29) :
    completesEos b d = true ↔ CompletesEos d.bits (byteBits b) := by
  have hlen : d.bits.len = d.pl.toNat := rfl
  have hbits (hl : 22 ≤ d.pl.toNat) : List.replicate (30 - d.pl.toNat) true <+: byteBits b ↔
      b.toNat / 2 ^ (d.pl.toNat - 22) = 2 ^ (30 - d.pl.toNat) - 1 := by
    rw [byteBits_ones (by omega), show 8 - (30 - d.pl.toNat) = d.pl.toNat - 22 by omega]
  simp only [completesEos, Bool.and_eq_true, decide_eq_true_eq]
  constructor
  · rintro ⟨⟨hl, hval⟩, hbyte⟩
    exact ⟨d.pl.toNat, BitStr.ext_len_val rfl hval, (hbits hl).mpr hbyte⟩
  · intro h
    have hl : 22 ≤ d.pl.toNat := len_of_completesEos_byte h
    obtain ⟨l, hq, hones⟩ := h
    obtain rfl : d.pl.toNat = l := congrArg BitStr.len hq
    exact ⟨⟨hl, congrArg BitStr.val hq⟩, (hbits hl).mp hones⟩

theorem isNode_of_decOk {d : Dec} (h : decOk d = true) : isNode d.bits = true :=
  (Bool.and_eq_true_iff.mp h).1

/-- Under R28 the loop fails exactly on the thirtieth one bit since a symbol boundary (R124, R161). -/
theorem walk_byte_eq_none_iff {b : Byte} {d : Dec} (hd : decOk d = true) :
    walk (byteBits b) d.bits [] = none ↔ completesEos b d = true := by
  rw [completesEos_iff (decOk_bounds hd).1, walk_byte_eq_none (isNode_of_decOk hd)]

/-- Bits that go on to EOS complete no symbol before it (R128). -/
theorem walk_take_of_completesEos {bs : List Bool} {q cur : BitStr} {out : List Byte} (k : Nat)
    (hlen : q.len ≤ 29) (heos : CompletesEos q bs) (h : walk (bs.take k) q [] = some (out, cur)) : out = [] := by
  induction bs generalizing q k with
  | nil =>
    rw [List.take_nil] at h
    cases h
    rfl
  | cons b bs ih =>
    cases k with
    | zero => cases h; rfl
    | succ k =>
      rw [List.take_succ_cons, walk_cons] at h
      rw [completesEos_cons hlen] at heos
      cases hd : dstep q b with
      | fail => rw [hd] at h; cases h
      | sym a n =>
        obtain ⟨j, hfind, hj, -, -⟩ := dstep_sym hd
        rw [← (findSymbol_some hfind).2] at heos
        exact absurd heos (not_completesEos_codeword hj)
      | mid n =>
        obtain ⟨-, hn, rfl⟩ := dstep_mid hd
        rw [hd] at h
        exact ih k (isNode_bounds hn).1 heos h

/-- In a byte that fails, from any string, no symbol completes before the failure: from a node the byte goes on to EOS, and
from any other string its first bit fails (R128). -/
theorem walk_take_of_walk_byte_none {b : Byte} {q cur : BitStr} {out : List Byte} (k : Nat)
    (hfail : walk (byteBits b) q [] = none) (h : walk ((byteBits b).take k) q [] = some (out, cur)) : out = [] := by
  cases hq : isNode q with
  | true => exact walk_take_of_completesEos k (isNode_bounds hq).1 ((walk_byte_eq_none hq).mp hfail) h
  | false =>
    cases k with
    | zero => cases h; rfl
    | succ k =>
      rw [byteBits, List.take_succ_cons, walk_cons, dstep_of_not_node _ hq] at h
      cases h

/-! ### The decoder's commands, one by one -/

/-- DEC_FEED on a byte whose loop fails, with the next state written out (R125). -/
theorem exec_decFeed_fails {b : Byte} {s : State} (herr : s.dec.err = false) (hpl : s.dec.pl.toNat ≤ 29)
    (hloop : feedLoop b s.dec = none) :
    exec (.decFeed b) s = .next (answered .malformed 0 [] [] { s with dec := { pl := 0, pv := 0, err := true } }) :=
  exec_decFeed_of_walk_none herr hpl (feedLoop_eq_walk b s.dec ▸ hloop)

/-- DEC_FEED on a byte whose loop does not fail, with the next state written out (R124). -/
theorem exec_decFeed_completes {b : Byte} {s : State} {out : List Byte} {cur : BitStr} (herr : s.dec.err = false)
    (hpl : s.dec.pl.toNat ≤ 29) (hloop : feedLoop b s.dec = some (out, cur)) :
    exec (.decFeed b) s = .next (answered .ok 0 [] out { s with dec := decOf cur false }) := by
  rw [exec_decFeed_of_walk_some herr hpl (feedLoop_eq_walk b s.dec ▸ hloop), setDecBits, herr]
  rfl

/-- Settles O29: the model's walk is R124's loop, which fails from a node exactly when EOS completes. -/
theorem decFeedResult : Obligations.DecFeedResult := by
  obtain ⟨-, -, hsticky, hfinish, -⟩ := stickyFlag
  refine ⟨fun b => encode_eq_or (.decFeed b), hsticky, fun b s => exec_decFeed_fails,
    fun b s out cur herr hpl hloop => ?_, fun b s hs _ => ?_, hfinish⟩
  · obtain ⟨hlen, hval⟩ := isNode_bounds (walk_byte_node (feedLoop_eq_walk b s.dec ▸ hloop))
    exact ⟨hlen, lt_of_lt_of_le hval (Nat.pow_le_pow_right (by decide) hlen), exec_decFeed_completes herr hpl hloop⟩
  · rw [feedLoop_eq_walk, walk_byte_eq_none_iff hs.2]

/-- Settles O30: without a completed EOS the walk gives symbols and a node, with one it fails. -/
theorem decFeedCompletes : Obligations.DecFeedCompletes := by
  intro b s hs herr
  have hpl := (decOk_bounds hs.2).1
  have hfails := walk_byte_eq_none_iff (b := b) hs.2
  rw [← feedLoop_eq_walk] at hfails
  refine ⟨fun heos => ?_, fun heos => exec_decFeed_fails herr hpl (hfails.mpr heos)⟩
  cases hloop : feedLoop b s.dec with
  | none => rw [hfails.mp hloop] at heos; cases heos
  | some r =>
    obtain ⟨out, cur⟩ := r
    exact ⟨out, decOf cur false, exec_decFeed_completes herr hpl hloop, rfl,
      walk_byte_length (feedLoop_eq_walk b s.dec ▸ hloop)⟩

/-- The two symbols of R126's example, which complete in the two nibbles of the byte. -/
theorem walk_two_symbols :
    walk (byteBits 0x01) { len := 3, val := 0 } [] = some ([0x30, 0x30], { len := 1, val := 1 }) := by
  decide +kernel

/-- Settles O31: only a byte that walks emits, one symbol a nibble (`walk_byte_length`). -/
theorem decOutputBound : Obligations.DecOutputBound := by
  refine ⟨fun b s t h => ?_, fun s hd => ?_⟩
  · cases answers_of_exec h with
    | decSticky => exact ⟨_, rfl, Nat.zero_le 2, fun _ => rfl⟩
    | decFails => exact ⟨_, rfl, Nat.zero_le 2, fun _ => rfl⟩
    | decFed b out cur herr hpl hwalk => exact ⟨_, rfl, walk_byte_length hwalk, absurd rfl⟩
  · refine (exec_decFeed_completes (cur := { len := 1, val := 1 }) ?_ ?_ ?_).trans rfl
    · rw [hd]
    · rw [hd]; decide
    · rw [feedLoop_eq_walk, hd]; exact walk_two_symbols

/-- Settles O32: a byte that fails goes on to EOS from a node, so all its bits and 22 pending ones are ones. -/
theorem failingFeedDropsNothing : Obligations.FailingFeedDropsNothing := by
  intro b s t k out cur herr hexec ht hfirst
  cases answers_of_exec hexec with
  | decSticky _ hsticky => rw [herr] at hsticky; cases hsticky
  | decFed => exact absurd (herr.symm.trans ht) (by decide)
  | decFails _ _ _ hwalk =>
    exact ⟨walk_take_of_walk_byte_none k hwalk hfirst,
      fun hd => len_of_completesEos_byte ((walk_byte_eq_none (isNode_of_decOk hd)).mp hwalk)⟩

/-- DEC_STATUS reads 0x100 with no pending bits and no error (R33). -/
theorem exec_regRead_decStatus_clear {s : State} (h : s.dec = { pl := 0, pv := 0, err := false }) :
    exec (.regRead 2) s = .next (answered .ok 0x00000100 [] [] s) := by
  refine exec_regRead_value.mpr ((readRegister_decStatus s).trans ?_)
  rw [regDecStatus, h]
  rfl

/-- Settles O28: the clear registers, and the stray words by `decode_error_of_op`. -/
theorem decInitResult : Obligations.DecInitResult := by
  refine ⟨rfl, exec_decInit, fun s t h => ?_, fun s w rest hp hop hw => ?_⟩
  · cases h
    exact exec_regRead_decStatus_clear rfl
  · obtain ⟨e, he⟩ := decode_error_of_op (i := .decInit) hop rfl hw
    exact step_of_illegal hp he

/-- R36's two forms of the end-of-string test agree. -/
theorem accepting_bits (d : Dec) : accepting d.bits = endsClean d := by
  rw [Bool.eq_iff_iff, accepting_iff]
  simp [endsClean, Dec.bits]

theorem finishCode_eq (d : Dec) :
    finishCode d = if d.err = true then .malformed else if endsClean d = true then .ok else .truncated := by
  rw [finishCode, accepting_bits]

/-- Settles O34: the code by R36's second form, and the clear registers. -/
theorem decFinishResult : Obligations.DecFinishResult := by
  refine ⟨rfl, fun s => ?_, fun s t h => ?_⟩
  · rw [exec_decFinish, finishCode_eq]
    rfl
  · cases h
    exact exec_regRead_decStatus_clear rfl

end Sys2Proof.Machine

namespace Sys2Proof.Machine

/-! ### The decoder alone -/

/-- The response of a decoder command: no DATA, nothing on ENC_OUT (R86). -/
def decResponse (code : ResultCode) (out : List Byte) : Response :=
  { code := code, data := 0, encOut := [], decOut := out }

/-- The decoder's registers with no pending bits (R120, R125). -/
def decCleared (err : Bool) : Dec := { pl := 0, pv := 0, err := err }

/-- What a decoder command answers and makes of the decoder's registers, from those registers alone (R69); any other command
answers nothing of the decoder's. -/
def decStep : Instr → Dec → List Response × Dec
  | .decInit, _ => ([decResponse .ok []], decCleared false)
  | .decFeed b, d =>
    if d.err then ([decResponse .malformed []], d)
    else match walk (byteBits b) d.bits [] with
      | none => ([decResponse .malformed []], decCleared true)
      | some r => ([decResponse .ok r.1], decOf r.2 d.err)
  | .decFinish, d => ([decResponse (finishCode d) []], decCleared false)
  | .nop, d => ([], d)
  | .encInit, d => ([], d)
  | .encByte _, d => ([], d)
  | .encFinish, d => ([], d)
  | .regRead _, d => ([], d)

/-- The same for a sequence of commands. -/
def decRun : List Instr → Dec → List Response × Dec
  | [], d => ([], d)
  | i :: is, d => ((decStep i d).1 ++ (decRun is (decStep i d).2).1, (decRun is (decStep i d).2).2)

theorem decStep_sticky (b : Byte) {d : Dec} (herr : d.err = true) :
    decStep (.decFeed b) d = ([decResponse .malformed []], d) := if_pos herr

theorem decStep_fails {b : Byte} {d : Dec} (herr : d.err = false) (hwalk : walk (byteBits b) d.bits [] = none) :
    decStep (.decFeed b) d = ([decResponse .malformed []], decCleared true) := by
  simp [decStep, herr, hwalk]

theorem decStep_fed {b : Byte} {d : Dec} {out : List Byte} {cur : BitStr} (herr : d.err = false)
    (hwalk : walk (byteBits b) d.bits [] = some (out, cur)) :
    decStep (.decFeed b) d = ([decResponse .ok out], decOf cur d.err) := by
  simp [decStep, herr, hwalk]

theorem decStep_of_not_decoder {i : Instr} (d : Dec) (h : isDecoder i = false) : decStep i d = ([], d) := by
  cases i with
  | decInit | decFeed | decFinish => cases h
  | nop | encInit | encByte | encFinish | regRead => rfl

/-- `decStep` is what a command that answers does to the decoder, and its answer if it is the decoder's. -/
theorem Answers.follows_decStep {i : Instr} {s t : State} (h : Answers s i t) :
    ∃ r, t.responses = s.responses ++ [r] ∧ decStep i s.dec = (if isDecoder i then [r] else [], t.dec) := by
  cases h with
  | nop | encInit | encByte | encFinish | regRead | regReserved => exact ⟨_, rfl, rfl⟩
  | decInit | decFinish => exact ⟨_, rfl, rfl⟩
  | decSticky b herr => exact ⟨_, rfl, decStep_sticky b herr⟩
  | decFails b herr _ hwalk => exact ⟨_, rfl, decStep_fails herr hwalk⟩
  | decFed b out cur herr _ hwalk => exact ⟨_, rfl, decStep_fed herr hwalk⟩

/-- The other commands leave no trace in the decoder's run. -/
theorem decRun_filter (is : List Instr) (d : Dec) : decRun (is.filter isDecoder) d = decRun is d := by
  induction is generalizing d with
  | nil => rfl
  | cons i is ih =>
    cases hi : isDecoder i with
    | true => simp [hi, decRun, ih]
    | false => simp [hi, decRun, decStep_of_not_decoder d hi, ih]

theorem decRun_append (is js : List Instr) (d : Dec) :
    decRun (is ++ js) d = ((decRun is d).1 ++ (decRun js (decRun is d).2).1, (decRun js (decRun is d).2).2) := by
  induction is generalizing d with
  | nil => rfl
  | cons i is ih => rw [List.cons_append, decRun, ih, decRun, List.append_assoc]

theorem decoderResponses_cons (i : Instr) (is : List Instr) (r : Response) (rs : List Response) :
    decoderResponses (i :: is) (r :: rs) = (if isDecoder i then [r] else []) ++ decoderResponses is rs := by
  cases hi : isDecoder i <;> simp [decoderResponses, hi]

/-! ### A run with a decoder in any state -/

/-- No command of `is` meets X16's stuck state: the registers hold a node, or the first decoder command is DEC_INIT. -/
def NeverStuck (is : List Instr) (d : Dec) : Prop :=
  decOk d = true ∨ ∃ js, is.filter isDecoder = .decInit :: js

/-- The first command answers, and the others go on without meeting the stuck state. -/
theorem NeverStuck.exec_next {i : Instr} {is : List Instr} {s : State} (h : NeverStuck (i :: is) s.dec) :
    ∃ t, exec i s = .next t ∧ NeverStuck is t.dec := by
  rcases h with hd | ⟨js, hjs⟩
  · obtain ⟨t, ht⟩ := exec_next_of_decOk i hd
    exact ⟨t, ht, Or.inl ((answers_of_exec ht).keeps_decOk hd)⟩
  · cases hi : isDecoder i with
    | true =>
      rw [List.filter_cons_of_pos hi] at hjs
      obtain rfl := (List.cons.inj hjs).1
      exact ⟨_, exec_decInit s, Or.inl (decOk_clear false)⟩
    | false =>
      rw [List.filter_cons_of_neg (by simp [hi])] at hjs
      obtain ⟨t, ht⟩ := exec_next_of_not_decFeed s (i := i) (by rintro b rfl; cases hi)
      exact ⟨t, ht, Or.inr ⟨js, hjs⟩⟩

/-- A run of any commands is the decoder's run in the decoder's responses and registers (R69). -/
theorem run_decoder {is : List Instr} {s : State} {rest : List HostInput} (hs : NeverStuck is s.dec)
    (hp : s.port = inputsOf is ++ rest) :
    ∃ t rs, Host.Core.run core is.length s = .next t ∧ t.responses = s.responses ++ rs ∧ rs.length = is.length ∧
      t.port = rest ∧ decRun is s.dec = (decoderResponses is rs, t.dec) := by
  induction is generalizing s with
  | nil => exact ⟨s, [], rfl, (List.append_nil _).symm, rfl, hp, rfl⟩
  | cons i is ih =>
    obtain ⟨u, hu, hnext⟩ := NeverStuck.exec_next (s := { s with port := inputsOf is ++ rest }) hs
    obtain ⟨r, hresp, hstep⟩ := (answers_of_exec hu).follows_decStep
    obtain ⟨-, -, hkept, -⟩ := commandFrame i _ u hu
    obtain ⟨t, rs, hrun, hresps, hlen, hport, hdec⟩ := ih hnext hkept
    refine ⟨t, r :: rs, (run_cons is.length hp hu).trans hrun, ?_, congrArg Nat.succ hlen, hport, ?_⟩
    · rw [hresps, hresp, List.append_assoc, List.singleton_append]
    · rw [decRun, hstep, hdec, decoderResponses_cons]

/-! ### The decoder's call -/

/-- With the flag set every byte answers MALFORMED (R124). -/
theorem decRun_feeds_sticky (x : List Byte) {d : Dec} (herr : d.err = true) :
    decRun (x.map Instr.decFeed) d = (List.replicate x.length (decResponse .malformed []), d) := by
  induction x with
  | nil => rfl
  | cons b x ih =>
    rw [List.map_cons, decRun, decStep_sticky b herr, ih, List.length_cons, List.replicate_succ]
    rfl

/-- Bytes that walk from the pending bits answer OK and emit what the walk emits (R124, R133). -/
theorem decRun_feeds_of_walk {x : List Byte} {q cur : BitStr} {out : List Byte} (hq : isNode q = true)
    (h : walk (x.flatMap byteBits) q [] = some (out, cur)) :
    ∃ rs, decRun (x.map Instr.decFeed) (decOf q false) = (rs, decOf cur false) ∧
      rs.map Response.code = List.replicate x.length .ok ∧ decOutBytes rs = out := by
  induction x generalizing q out with
  | nil =>
    cases h
    exact ⟨[], rfl, rfl, rfl⟩
  | cons b x ih =>
    rw [List.flatMap_cons, walk_append, Option.bind_eq_some_iff] at h
    obtain ⟨⟨syms, mid⟩, hbyte, hrest⟩ := h
    rw [walk_out, Option.map_eq_some_iff] at hrest
    obtain ⟨⟨more, _⟩, hrest, hout⟩ := hrest
    cases hout
    obtain ⟨rs, hrun, hcodes, houts⟩ := ih (walk_node hq hbyte) hrest
    have hstep : decStep (.decFeed b) (decOf q false) = ([decResponse .ok syms], decOf mid false) :=
      decStep_fed rfl (by rw [decOf_bits false hq, hbyte])
    refine ⟨decResponse .ok syms :: rs, ?_, ?_, ?_⟩
    · rw [List.map_cons, decRun, hstep, hrun]
      rfl
    · rw [List.map_cons, hcodes, List.length_cons, List.replicate_succ]
      rfl
    · rw [← houts]
      rfl

/-- DEC_INIT and DEC_FINISH around the bytes (R80, R120, R130). -/
theorem decRun_decodeCall (x : List Byte) (d : Dec) {rs : List Response} {d' : Dec}
    (h : decRun (x.map Instr.decFeed) (decCleared false) = (rs, d')) :
    decRun (decodeCall x) d = (decResponse .ok [] :: (rs ++ [decResponse (finishCode d') []]), decCleared false) := by
  rw [decodeCall, decRun, decRun_append]
  simp only [decStep, h]
  rfl

/-- The decoder's call on bytes that walk: DEC_FINISH tells whether the stream may end there (R133). -/
theorem decRun_decodeCall_of_walk {x out : List Byte} {cur : BitStr} (d : Dec)
    (h : walk (x.flatMap byteBits) BitStr.empty [] = some (out, cur)) :
    ∃ rs, decRun (decodeCall x) d = (rs, decCleared false) ∧ decOutBytes rs = out ∧
      rs.map Response.code = List.replicate (x.length + 1) .ok ++ [if accepting cur then .ok else .truncated] := by
  obtain ⟨rs, hrun, hcodes, hout⟩ := decRun_feeds_of_walk isNode_root h
  have hfinish : finishCode (decOf cur false) = if accepting cur then .ok else .truncated := by
    rw [finishCode, decOf_bits false (walk_node isNode_root h)]
    rfl
  refine ⟨_, decRun_decodeCall x d hrun, ?_, ?_⟩
  · simp [decOutBytes, decResponse, ← hout]
  · simp [decResponse, hcodes, hfinish, List.replicate_succ]

/-- A byte string that fails has a first byte that fails. -/
theorem exists_first_failing_byte {x : List Byte} (h : walk (x.flatMap byteBits) BitStr.empty [] = none) :
    ∃ j, j < x.length ∧ walk ((x.take j).flatMap byteBits) BitStr.empty [] ≠ none ∧
      walk ((x.take (j + 1)).flatMap byteBits) BitStr.empty [] = none := by
  have hall : walk ((x.take x.length).flatMap byteBits) BitStr.empty [] = none := by rwa [List.take_length]
  have hex : ∃ n, walk ((x.take n).flatMap byteBits) BitStr.empty [] = none := ⟨x.length, hall⟩
  cases hfind : Nat.find hex with
  | zero => exact absurd ((Nat.find_eq_zero hex).mp hfind) nofun
  | succ j =>
    refine ⟨j, hfind.symm.trans_le (Nat.find_min' hex hall), Nat.find_min hex (hfind ▸ Nat.lt_succ_self j), ?_⟩
    rw [← hfind]
    exact Nat.find_spec hex

/-- The decoder's call on bytes that fail first in byte `j`: OK before it, MALFORMED from it on (R133). -/
theorem decRun_decodeCall_of_first_failing_byte {x : List Byte} {j : Nat} (d : Dec) (hj : j < x.length)
    (hbefore : walk ((x.take j).flatMap byteBits) BitStr.empty [] ≠ none)
    (hfails : walk ((x.take (j + 1)).flatMap byteBits) BitStr.empty [] = none) :
    ∃ rs, decRun (decodeCall x) d =
        (rs ++ List.replicate (x.length - j + 1) (decResponse .malformed []), decCleared false) ∧
      rs.map Response.code = List.replicate (j + 1) .ok := by
  obtain ⟨⟨out, cur⟩, hwalk⟩ := Option.ne_none_iff_exists'.mp hbefore
  have hnode := walk_node isNode_root hwalk
  have hbyte : walk (byteBits x[j]) cur [] = none := by
    rw [← List.take_append_getElem hj, List.flatMap_append, List.flatMap_singleton, walk_append, hwalk,
      Option.bind_some, walk_out, Option.map_eq_none_iff] at hfails
    exact hfails
  obtain ⟨rs, hrun, hcodes, -⟩ := decRun_feeds_of_walk isNode_root hwalk
  have hstep : decStep (.decFeed x[j]) (decOf cur false) = ([decResponse .malformed []], decCleared true) :=
    decStep_fails rfl (by rw [decOf_bits false hnode, hbyte])
  have hsplit : x.map Instr.decFeed =
      (x.take j).map Instr.decFeed ++ .decFeed x[j] :: (x.drop (j + 1)).map Instr.decFeed := by
    rw [← List.map_cons, ← List.map_append, ← List.drop_eq_getElem_cons hj, List.take_append_drop]
  have hcount : x.length - j = x.length - (j + 1) + 1 := by omega
  have hfeeds : decRun (x.map Instr.decFeed) (decCleared false) =
      (rs ++ List.replicate (x.length - j) (decResponse .malformed []), decCleared true) := by
    have hrun : decRun ((x.take j).map Instr.decFeed) (decCleared false) = (rs, decOf cur false) := hrun
    rw [hsplit, decRun_append, hrun, decRun, hstep, decRun_feeds_sticky _ rfl, List.length_drop, hcount,
      List.replicate_succ]
    rfl
  refine ⟨decResponse .ok [] :: rs, ?_, ?_⟩
  · rw [decRun_decodeCall x d hfeeds, List.replicate_succ']
    simp [finishCode, decCleared]
  · rw [List.map_cons, hcodes, List.length_take_of_le (Nat.le_of_lt hj), List.replicate_succ]
    rfl

/-- R133's three cases, of the responses that the decoder's call gets from its registers. -/
structure AnswersDecode (x : List Byte) (rs : List Response) : Prop where
  ok : ∀ out, huffDecode x = .ok out →
    rs.map Response.code = List.replicate (x.length + 2) .ok ∧ decOutBytes rs = out
  malformed : huffDecode x = .malformed → ∃ j, j < x.length ∧
    walk ((x.take j).flatMap byteBits) BitStr.empty [] ≠ none ∧
    walk ((x.take (j + 1)).flatMap byteBits) BitStr.empty [] = none ∧
    rs.map Response.code = List.replicate (j + 1) .ok ++ List.replicate (x.length - j + 1) .malformed ∧
    decOutBytes (rs.drop (j + 1)) = []
  truncated : huffDecode x = .truncated → rs.map Response.code = List.replicate (x.length + 1) .ok ++ [.truncated]

/-- The decoder's call gets the responses of `huff_decode` and leaves the decoder clear (R133). -/
theorem decRun_decodeCall_answers (x : List Byte) (d : Dec) :
    ∃ rs, decRun (decodeCall x) d = (rs, decCleared false) ∧ AnswersDecode x rs := by
  cases hwalk : walk (x.flatMap byteBits) BitStr.empty [] with
  | none =>
    obtain ⟨j, hj, hbefore, hfails⟩ := exists_first_failing_byte hwalk
    obtain ⟨rs, hrun, hcodes⟩ := decRun_decodeCall_of_first_failing_byte d hj hbefore hfails
    have hlen : rs.length = j + 1 := by simpa using congrArg List.length hcodes
    refine ⟨_, hrun, fun out h => ?_, fun _ => ⟨j, hj, hbefore, hfails, ?_, ?_⟩, fun h => ?_⟩
    · rw [huffDecode_eq_malformed.mpr hwalk] at h
      cases h
    · rw [List.map_append, hcodes, List.map_replicate]
      rfl
    · rw [List.drop_left' hlen, decOutBytes, List.flatMap_eq_nil_iff]
      intro r hr
      rw [List.eq_of_mem_replicate hr]
      rfl
    · rw [huffDecode_eq_malformed.mpr hwalk] at h
      cases h
  | some r =>
    obtain ⟨out, cur⟩ := r
    obtain ⟨rs, hrun, hout, hcodes⟩ := decRun_decodeCall_of_walk d hwalk
    refine ⟨rs, hrun, fun out' h => ?_, fun h => ?_, fun h => ?_⟩
    · obtain ⟨cur', hwalk', hacc⟩ := huffDecode_eq_ok.mp h
      rw [hwalk] at hwalk'
      cases hwalk'
      rw [hcodes, if_pos hacc]
      exact ⟨List.replicate_succ'.symm, hout⟩
    · rw [huffDecode_eq_malformed.mp h] at hwalk
      cases hwalk
    · obtain ⟨out', cur', hwalk', hacc⟩ := huffDecode_eq_truncated.mp h
      rw [hwalk] at hwalk'
      cases hwalk'
      rw [hcodes, hacc]
      rfl

/-! ### The command sequence and the host -/

/-- Settles O37: a run is the decoder's run (`run_decoder`), which sees the decoder's commands alone and answers as
`huff_decode` says. -/
theorem decodeSequenceLaw : Obligations.DecodeSequenceLaw := by
  intro s x is rest hfilter hp
  obtain ⟨t, rs, hrun, hresps, hlen, hport, hdec⟩ := run_decoder (Or.inr ⟨_, hfilter⟩) hp
  obtain ⟨rs', hcall, hanswers⟩ := decRun_decodeCall_answers x s.dec
  rw [← decRun_filter, hfilter, hcall] at hdec
  obtain ⟨rfl, hclear⟩ := Prod.ext_iff.mp hdec
  exact ⟨t, rs, hrun, hresps, hlen, hclear.symm, hport, hanswers.ok, hanswers.malformed, hanswers.truncated⟩

/-- Responses that are all OK are accepted with what they emitted (R131). -/
theorem acceptDecoded_of_codes_ok {rs : List Response} {n : Nat} (h : rs.map Response.code = List.replicate n .ok) :
    acceptDecoded rs = some (decOutBytes rs) := by
  refine if_pos (List.all_eq_true.mpr fun r hr => decide_eq_true ?_)
  exact List.eq_of_mem_replicate (h ▸ List.mem_map_of_mem hr)

/-- One response that is not OK, and nothing is accepted (R131, R201). -/
theorem acceptDecoded_of_code_ne_ok {rs : List Response} {c : ResultCode} (h : c ∈ rs.map Response.code) (hc : c ≠ .ok) :
    acceptDecoded rs = none := by
  obtain ⟨r, hr, rfl⟩ := List.mem_map.mp h
  refine if_neg fun hall => hc ?_
  exact of_decide_eq_true (List.all_eq_true.mp hall r hr)

/-- What the host may accept from the responses to a call is what `huff_decode` gives (R131, R133). -/
theorem AnswersDecode.acceptDecoded_eq_some {x out : List Byte} {rs : List Response} (h : AnswersDecode x rs) :
    acceptDecoded rs = some out ↔ huffDecode x = .ok out := by
  cases hx : huffDecode x with
  | ok out' =>
    obtain ⟨hcodes, hout⟩ := h.ok out' hx
    rw [acceptDecoded_of_codes_ok hcodes, hout, Option.some_inj, DecodeResult.ok.injEq]
  | malformed =>
    obtain ⟨j, -, -, -, hcodes, -⟩ := h.malformed hx
    rw [acceptDecoded_of_code_ne_ok (c := .malformed) (by simp [hcodes]) nofun]
    exact iff_of_false nofun nofun
  | truncated =>
    rw [acceptDecoded_of_code_ne_ok (c := .truncated) (by simp [h.truncated hx]) nofun]
    exact iff_of_false nofun nofun

/-- Settles O40: the run is the one of `decodeSequenceLaw`, and what `huff_decode` accepts is exact. -/
theorem hostAcceptsExactly : Obligations.HostAcceptsExactly := by
  intro s t x out is rs rest hfilter hp hrun hresps
  obtain ⟨t', rs', hrun', hresps', -, -, -, hok, hmalformed, htruncated⟩ := decodeSequenceLaw s x is rest hfilter hp
  obtain rfl : t = t' := Host.Outcome.next.inj (hrun.symm.trans hrun')
  obtain rfl : rs = rs' := List.append_cancel_left (hresps.symm.trans hresps')
  have hanswers : AnswersDecode x (decoderResponses is rs) := ⟨hok, hmalformed, htruncated⟩
  rw [hanswers.acceptDecoded_eq_some, decoderExactness]

end Sys2Proof.Machine

namespace Sys2Proof.Machine

/-! ### The control commands -/

/-- Settles O16: the stray words by `decode_error_of_op`. -/
theorem nopResult : Obligations.NopResult := by
  refine ⟨rfl, exec_nop, fun s w rest hp hop hw => ?_⟩
  obtain ⟨e, he⟩ := decode_error_of_op (i := .nop) hop rfl hw
  exact step_of_illegal hp he

/-- A REG_READ answers with the number that its register holds. -/
theorem exec_regRead_of_toNat {i : Byte} {s : State} {v : Word32} {n : Nat}
    (hread : readRegister (registerIndex i) s = some v) (hn : v.toNat = n) :
    exec (.regRead i) s = .next (answered .ok (BitVec.ofNat 32 n) [] [] s) := by
  rw [exec_regRead_value, hread, ← hn, BitVec.ofNat_toNat, BitVec.setWidth_eq]

/-- The ACCEPT bit by R36's second form (R33). -/
theorem acceptFlag_toNat (d : Dec) :
    (acceptFlag d).toNat = if d.err = false ∧ endsClean d = true then 1 else 0 := by
  rw [acceptFlag, accepting_bits]
  cases d.err <;> cases endsClean d <;> rfl

/-- Settles O17: the registers as the numbers of `regEncStatus_toNat`, `regDecStatus_toNat` and `regDecPrefix_toNat`. -/
theorem regReadResult : Obligations.RegReadResult := by
  refine ⟨fun i => encode_eq_or (.regRead i), fun s => exec_regRead_of_some (readRegister_id s),
    fun s => exec_regRead_of_toNat (readRegister_encStatus s) (regEncStatus_toNat s),
    fun s => exec_regRead_of_toNat (readRegister_decStatus s) ?_,
    fun s => exec_regRead_of_toNat (readRegister_decPrefix s) (regDecPrefix_toNat s),
    fun s i h => exec_regRead_reserved s h⟩
  simp only [regDecStatus_toNat, acceptFlag_toNat, Nat.reducePow]

end Sys2Proof.Machine

namespace Sys2Proof.Machine

/-! ### Which code answers a word -/

/-- Settles O7: no input to take. -/
theorem idleHoldsState : Obligations.IdleHoldsState := fun _ => step_of_empty

/-- R82, R83: the opcodes of the commands without operand. -/
theorem opcode_takes_no_operand :
    ∀ op ∈ [0x0#4, 0x1#4, 0x3#4, 0x4#4, 0x6#4], ¬ (op = 0x2 ∨ op = 0x5 ∨ op = 0x7) := by
  decide

/-- The fields of a word that decodes pass the checks (R81 to R83). -/
theorem wellFormed_of_decode {w : Command} {i : Instr} (h : decode w = .ok i) : (splitFields w).wellFormed = true :=
  fieldsOf_of_decode h ▸ fieldsOf_wellFormed i

/-- Settles O9: a cause of the first three kinds fails a check, so the word is ILLEGAL; a word of the fourth kind that
decodes is a REG_READ of a reserved index. -/
theorem invalidWords : Obligations.InvalidWords := by
  intro s w rest hp hcause
  cases hd : decode w with
  | error e => exact step_of_illegal hp hd
  | ok i =>
    obtain ⟨hrsv, hop, hopnd⟩ := wellFormed_iff.mp (wellFormed_of_decode hd)
    rcases hcause with hreserved | hopcode | ⟨hmem, hnonzero⟩ | ⟨hread, hindex⟩
    · exact absurd hrsv hreserved
    · exact absurd hop (Nat.not_lt.mpr hopcode)
    · exact absurd (hopnd.resolve_left (opcode_takes_no_operand _ hmem)) hnonzero
    · have hfields : splitFields w = fieldsOf (.regRead (w.extractLsb' 0 8)) := congrArg₂ (Fields.mk · · _) hread hrsv
      rw [step_of_decode hp (decode_of_fieldsOf hfields), exec_regRead_reserved _ hindex]

/-- The reserved indices are those from 4 on (R30). -/
theorem readRegister_eq_none_iff {i : Nat} {s : State} : readRegister i s = none ↔ 4 ≤ i := by
  constructor
  · intro hread
    by_contra hlt
    obtain rfl | rfl | rfl | rfl : i = 0 ∨ i = 1 ∨ i = 2 ∨ i = 3 := by omega
    all_goals cases hread
  · exact readRegister_reserved s

/-- Under R28 the response to a command has the code of R166: for DEC_FEED the walk fails exactly on the thirtieth
one bit. -/
theorem Answers.code_eq_expectedCode {i : Instr} {s t : State} (h : Answers s i t) (hdec : decOk s.dec = true) :
    ∃ r, t.responses = s.responses ++ [r] ∧ r.code = expectedCode (encode i) s := by
  rw [expectedCode, decode_encode]
  cases h with
  | nop | encInit | encByte | encFinish | decInit => exact ⟨_, rfl, rfl⟩
  | decSticky b herr => exact ⟨_, rfl, by simp [herr]⟩
  | decFails b herr hpl hwalk => exact ⟨_, rfl, by simp [herr, (walk_byte_eq_none_iff hdec).mp hwalk]⟩
  | decFed b out cur herr hpl hwalk =>
    have heos : completesEos b s.dec ≠ true := by simp [← walk_byte_eq_none_iff hdec, hwalk]
    exact ⟨_, rfl, by simp [herr, heos]⟩
  | decFinish => exact ⟨_, rfl, finishCode_eq s.dec⟩
  | regRead j v hread =>
    have hindex : ¬ 4 ≤ j.toNat := fun h4 => nomatch hread.symm.trans (readRegister_reserved s h4)
    exact ⟨_, rfl, (if_pos (Nat.not_le.mp hindex)).symm⟩
  | regReserved j hread =>
    exact ⟨_, rfl, (if_neg (Nat.not_lt.mpr (readRegister_eq_none_iff.mp hread))).symm⟩

/-- R166's first cause: an ILLEGAL word answers INVALID in every state. -/
theorem expectedCode_of_illegal {w : Command} {e : Illegal} (s : State) (h : decode w = .error e) :
    expectedCode w s = .invalid := by
  rw [expectedCode, h]

/-- Settles O11: an ILLEGAL word by `step_of_illegal`; a command answers under the invariant, with the code of
`Answers.code_eq_expectedCode`. -/
theorem codePriority : Obligations.CodePriority := by
  intro s w rest hs hp
  cases hd : decode w with
  | error e => exact ⟨_, _, step_of_illegal hp hd, rfl, (expectedCode_of_illegal s hd).symm⟩
  | ok i =>
    obtain ⟨t, ht⟩ := exec_next_of_inv i (hs.of_engines (t := { s with port := rest }) rfl rfl)
    obtain ⟨r, hr, hcode⟩ := (answers_of_exec ht).code_eq_expectedCode hs.2
    rw [encode_of_decode hd] at hcode
    exact ⟨t, r, (step_of_decode hp hd).trans ht, hr, hcode⟩

/-- DEC_FINISH reports TRUNCATED when no error stands and the pending bits do not end a string (R130, R162). -/
theorem finishCode_truncated {d : Dec} : finishCode d = .truncated ↔ d.err = false ∧ endsClean d = false := by
  rw [finishCode_eq]
  cases d.err <;> cases endsClean d <;> decide

theorem finishCode_ne_invalid (d : Dec) : finishCode d ≠ .invalid := by
  rw [finishCode_eq]
  cases d.err <;> cases endsClean d <;> decide

/-- The cause of each error code that a command can answer with (R161 to R164). -/
theorem Answers.error_cause {i : Instr} {s t : State} {r : Response} (h : Answers s i t)
    (hr : t.responses = s.responses ++ [r]) :
    (r.code = .malformed → i = .decFinish ∨ ∃ b, i = .decFeed b) ∧
      (r.code = .truncated → i = .decFinish ∧ s.dec.err = false ∧ endsClean s.dec = false) ∧
      (r.code = .invalid → ∃ j, i = .regRead j ∧ 4 ≤ j.toNat) := by
  cases h <;> obtain rfl := List.singleton_inj.mp (List.append_cancel_left hr)
  case decSticky b _ => exact ⟨fun _ => .inr ⟨b, rfl⟩, nofun, nofun⟩
  case decFails b _ _ _ => exact ⟨fun _ => .inr ⟨b, rfl⟩, nofun, nofun⟩
  case decFinish =>
    exact ⟨fun _ => .inl rfl, fun hcode => ⟨rfl, finishCode_truncated.mp hcode⟩,
      fun hcode => absurd hcode (finishCode_ne_invalid s.dec)⟩
  case regReserved j hread => exact ⟨nofun, nofun, fun _ => ⟨j, rfl, readRegister_eq_none_iff.mp hread⟩⟩
  all_goals exact ⟨nofun, nofun, nofun⟩

/-- Settles O53: `Answers.error_cause` for the commands; the codes are R87's. -/
theorem noOtherError : Obligations.NoOtherError :=
  ⟨fun _ _ _ _ h => (answers_of_exec h).error_cause, rfl⟩

end Sys2Proof.Machine

namespace Sys2Proof.Machine

/-! ### Reset -/

/-- Settles O12: the step of a reset input, and `State.reset` as defined. -/
theorem resetEffect : Obligations.ResetEffect :=
  ⟨fun _ _ => step_of_reset, rfl, rfl⟩

/-- DEC_PREFIX reads 0 with no pending bits (R34). -/
theorem exec_regRead_decPrefix_clear {s : State} (h : s.dec = { pl := 0, pv := 0, err := false }) :
    exec (.regRead 3) s = .next (answered .ok 0 [] [] s) := by
  refine exec_regRead_value.mpr ((readRegister_decPrefix s).trans ?_)
  rw [regDecPrefix, h]
  rfl

/-- ENC_INIT and ENC_FINISH leave the encoder as reset does (R100, R106). -/
theorem enc_reset_of_exec {i : Instr} {s t : State} (hi : i = .encInit ∨ i = .encFinish)
    (h : exec i s = .next t) : t.enc = State.reset.enc := by
  rcases hi with rfl | rfl <;> cases h <;> rfl

/-- DEC_INIT and DEC_FINISH leave the decoder as reset does and the encoder as it was (R120, R130). -/
theorem dec_reset_of_exec {i : Instr} {s t : State} (hi : i = .decInit ∨ i = .decFinish)
    (h : exec i s = .next t) : t.enc = s.enc ∧ t.dec = State.reset.dec := by
  rcases hi with rfl | rfl <;> cases h <;> exact ⟨rfl, rfl⟩

/-- The first command clears the encoder; the second clears the decoder and keeps the encoder (R191). -/
theorem engines_reset_of_exec {i j : Instr} {s t u : State} (hi : i = .encInit ∨ i = .encFinish)
    (hj : j = .decInit ∨ j = .decFinish) (ht : exec i s = .next t) (hu : exec j t = .next u) :
    u.enc = State.reset.enc ∧ u.dec = State.reset.dec := by
  obtain ⟨hkeep, hclear⟩ := dec_reset_of_exec hj hu
  exact ⟨hkeep.trans (enc_reset_of_exec hi ht), hclear⟩

/-- Settles O13: the registers with no pending bits; each pair of commands by `engines_reset_of_exec`; every command
answers because the reset state meets the invariant. -/
theorem resetEquivalents : Obligations.ResetEquivalents := by
  refine ⟨fun s henc hdec => ?_, fun _ _ _ => engines_reset_of_exec (.inl rfl) (.inl rfl),
    fun _ _ _ => engines_reset_of_exec (.inr rfl) (.inr rfl), fun s henc hdec => ?_⟩
  · exact ⟨exec_regRead_of_some (readRegister_id s), exec_regRead_encStatus_clear henc,
      exec_regRead_decStatus_clear hdec, exec_regRead_decPrefix_clear hdec⟩
  · have hinv : s.Inv := resetMeetsInvariant.of_engines henc hdec
    exact ⟨step_of_empty, fun i => exec_next_of_inv i hinv⟩

end Sys2Proof.Machine
